-- ==== Sys2Proof/Config.lean ====
section
/-! DEFINITION. What the implementation fixes (00_scope.md R7) and the one parameter the spec leaves open (R8).

`N_CTX = 1` and `N_LANES = 1` are not numbers here: the state holds one context (R20) and a step runs one command (R69).
`TRANSPORT` (R103) has no value here either: the model takes assembled commands. -/

namespace Sys2Proof

/-- `XLEN` (R7): the width of every data port. -/
abbrev Config.xlen : Nat := 64

/-- `R_MAX` (R7): the largest round count an 8-bit field carries. -/
abbrev Config.rMax : Nat := 255

/-- `B_MAX` (R7): the largest key length in bytes an 8-bit field carries. -/
abbrev Config.bMax : Nat := 255

/-- `T_MAX` (R7): the depth of the expanded key table. -/
abbrev Config.tMax : Nat := 512

/-- `C_MAX` (R7): the depth of the array of key words. -/
abbrev Config.cMax : Nat := 128

/-- The open choice behind `MAGIC_Q64` (R8, R145, 92_eei_decisions.md D10): is the wording of `Odd()` taken literally
(`true`), or is the published constant taken (`false`)?  It has no body, so a proof holds for both.
DESIGN CHOICE, safe: assumption log 3. -/
opaque Config.oddTakenLiterally : Bool

end Sys2Proof
end

