-- ==== Sys2Proof/Word.lean ====
section
/-! DEFINITION. Bytes, the three word sizes and the word type (43_word_primitives.md R120, 10_state.md R23).

A word has exactly `w` bits, as R129 recommends, so bits `[XLEN-1:w]` of a word register are not represented (R29).
The arithmetic on words is in Machine/Primitives.lean. -/

namespace Sys2Proof

/-- One byte of the key buffer (R60). -/
abbrev Byte := BitVec 8

/-- A value on a data port, `XLEN` bits (R37). -/
abbrev DataWord := BitVec Config.xlen

/-- The supported word sizes (R6, R23): 16, 32 and 64 and no other. -/
inductive WordSize where
  | w16
  | w32
  | w64
  deriving DecidableEq, Repr

/-- `w`, the word size in bits (R23). -/
def WordSize.bits : WordSize → Nat
  | .w16 => 16
  | .w32 => 32
  | .w64 => 64

/-- `u = w/8`, the bytes per word (20_memory.md R61). -/
def WordSize.bytes (w : WordSize) : Nat := w.bits / 8

/-- A word: an unsigned integer of `w` bits (R120). -/
abbrev Word (w : WordSize) := BitVec w.bits

end Sys2Proof
end

