-- ==== Sys2Proof/Syntax.lean ====
section
/-! DEFINITION. The four commands (00_scope.md R3), one constructor per row of spec/opcode_table.json, and a command as the
host hands it over (30_encoding.md R90, R103). -/

namespace Sys2Proof

/-- A decoded command word (R99).  The fields are the fields of the word, unsigned, used as they stand (R95).
The payload is not part of it: it stands in the command registers (R37). -/
inductive Instr where
  /-- `CREATE w, r, b` (R92, R140): word size in bits, round count, key length in bytes. -/
  | create (W R B : BitVec 8)
  /-- `EXPAND k0 … k(LEN-1)` (R93, R160): the number of key bytes in the payload. -/
  | expand (LEN : BitVec 8)
  /-- `ENCRYPT x0, x1` (R94, R180). -/
  | encrypt
  /-- `DECRYPT x0, x1` (R94, R190). -/
  | decrypt
  deriving DecidableEq, Repr

/-- What the host drives for one command (R37, R90, R103): the command word and the payload, assembled. -/
structure Command where
  /-- `CMD`, the command word. -/
  word : BitVec 32
  /-- `K[0..LEN-1]`, the key buffer, `K[0]` first. -/
  key : List Byte
  /-- `X0`, the first data value. -/
  x0 : DataWord
  /-- `X1`, the second data value. -/
  x1 : DataWord
  deriving DecidableEq, Repr

end Sys2Proof
end

