-- ==== Sys2Proof/WellFormed.lean ====
section
/-! DEFINITION. When a payload has the shape its command fixes (30_encoding.md R90, R91, R100).

Every term of `Instr` is a command word of the spec: each field has its field's exact width, and a `W` that is no supported
word size is still a `CREATE`, which answers `InvalidParameter` (R92, R141).  What can be ill-formed is the pair of a command
and its key buffer. -/

namespace Sys2Proof

/-- The number of key bytes a command's payload holds, read from the command word itself (R100). -/
def Instr.keyLength : Instr → Nat
  | .create _ _ _ => 0
  | .expand len => len.toNat
  | .encrypt => 0
  | .decrypt => 0

/-- The key buffer has the length the command fixes: `LEN` bytes for `EXPAND` (R93), no bytes for the others (R91). -/
def Instr.payloadFits (i : Instr) (key : List Byte) : Bool := key.length == i.keyLength

end Sys2Proof
end

