-- ==== Sys2Proof/Decode.lean ====
section
/-! DEFINITION. Decoding a command word (30_encoding.md R91 to R99), total on all 2^32 words, and the encoder. -/

namespace Sys2Proof

/-- Why a command word decodes to `illegal` (R97, R98).  The engine answers `IllegalCommand` in both cases. -/
inductive Illegal where
  /-- `OPC` is `0x0` or `0x5`..`0xF` (R97). -/
  | reservedOpcode
  /-- `OPC` names a command and a reserved bit is not zero (R98). -/
  | reservedBits
  deriving DecidableEq, Repr

/-- The field `v[lo+len-1 : lo]` of a command word (00_scope.md section 6.1). -/
def field (cmd : BitVec 32) (lo len : Nat) : BitVec len := cmd.extractLsb' lo len

/-- Format C (R92): bits 27:24 reserved, then `W`, `R`, `B`. -/
def decodeCreate (cmd : BitVec 32) : Except Illegal Instr :=
  if field cmd 24 4 = 0 then .ok (.create (field cmd 16 8) (field cmd 8 8) (field cmd 0 8)) else .error .reservedBits

/-- Format K (R93): bits 27:8 reserved, then `LEN`. -/
def decodeExpand (cmd : BitVec 32) : Except Illegal Instr :=
  if field cmd 8 20 = 0 then .ok (.expand (field cmd 0 8)) else .error .reservedBits

/-- Format X (R94): bits 27:0 reserved. -/
def decodeBlock (i : Instr) (cmd : BitVec 32) : Except Illegal Instr :=
  if field cmd 0 28 = 0 then .ok i else .error .reservedBits

/-- `decode(CMD)` of R99: `OPC = CMD[31:28]` selects the format (R91). -/
def decode (cmd : BitVec 32) : Except Illegal Instr :=
  let opc := field cmd 28 4
  if opc = 0x1 then decodeCreate cmd
  else if opc = 0x2 then decodeExpand cmd
  else if opc = 0x3 then decodeBlock .encrypt cmd
  else if opc = 0x4 then decodeBlock .decrypt cmd
  else .error .reservedOpcode

/-- The command word of a command: `OPC`, the reserved zeros, the fields (R92 to R94). -/
def encode : Instr → BitVec 32
  | .create W R B => 0x1#4 ++ 0x0#4 ++ W ++ R ++ B
  | .expand LEN => 0x2#4 ++ 0x0#20 ++ LEN
  | .encrypt => 0x30000000#32
  | .decrypt => 0x40000000#32

/-- The word whose low `nbits` bits are those of `w` and whose bits above are zero. -/
def tableWord (nbits w : Nat) : BitVec 32 := BitVec.ofNat 32 (w % 2 ^ nbits)

/-- What the decoder reads from an instruction whose bits spec/opcode_table.json numbers as `w`. -/
def decodeTableWord (nbits w : Nat) : Option Instr := (decode (tableWord nbits w)).toOption

/-- A command as the spec has them (30_encoding.md R90): the key buffer has the length the command word fixes.  The payload of
a word that decodes to no command is ignored (R97). -/
def Command.wellFormed (c : Command) : Bool :=
  match decode c.word with
  | .ok i => i.payloadFits c.key
  | .error _ => true

end Sys2Proof
end

