-- ==== Sys2Proof/Machine/State.lean ====
section
/-! DEFINITION. The state of RC5-CORE as plain data (10_state.md): the context (R20 to R33), the command registers and the
response (R37), with the reset state (R50).

ABSENCE.  The spec represents a context that was never created, and a table that was never expanded, as absence ("an option
type that is `none`", R31; 93_implementation_defined.md U1, U2, U8), never as a default.  So the flag `RESOLVED` is stored as
the presence of the context and the flag `KEYED` as the presence of its table, each in this one home; Machine/Flags.lean
reads them.  DEDUCED, safe: assumption log 2.

TRANSIENTS.  `A`, `B`, `L`, `i`, `j`, `k` (R34 to R36) are no state between commands (R38): they are the values the meanings
compute with (Machine/KeySchedule.lean, Machine/RoundTransform.lean).  DEDUCED, safe: assumption log 8. -/

namespace Sys2Proof.Machine

/-- The CipherContext (R20). -/
structure Context where
  /-- `ctx.w` (R23). -/
  w : WordSize
  /-- `ctx.r`, the round count, 8 bits (R24). -/
  r : BitVec 8
  /-- `ctx.b`, the key length in bytes, 8 bits (R25). -/
  b : BitVec 8
  /-- `ctx.c`, the key length in words, 8 bits (R26, R45). -/
  c : BitVec 8
  /-- `ctx.t`, the length of the expanded table, 10 bits (R27, R45). -/
  t : BitVec 10
  /-- `ctx.P`, a magic constant (R28). -/
  P : Word w
  /-- `ctx.Q`, a magic constant (R28). -/
  Q : Word w
  /-- `ctx.S`, the expanded key table: absent before expansion (R29 to R31). -/
  S : Option (List (Word w))
  deriving DecidableEq, Repr

/-- The three errors (60_exceptions.md R200). -/
inductive Error where
  /-- Raised by `CREATE` and `EXPAND` (R201). -/
  | invalidParameter
  /-- Raised by `ENCRYPT` and `DECRYPT` (R202). -/
  | notInitialized
  /-- Raised by a command word that decodes to no command (R203). -/
  | illegalCommand
  deriving DecidableEq, Repr

/-- A response (30_encoding.md R96), in the form R96 recommends: an error carries no data. -/
inductive Response where
  /-- An error: `STATUS` its code, `Y0 = Y1 = 0`. -/
  | error (e : Error)
  /-- A successful `CREATE` or `EXPAND`: `STATUS = OK`, `Y0 = Y1 = 0`. -/
  | ok
  /-- A successful `ENCRYPT` or `DECRYPT`: `STATUS = OK` and the block. -/
  | okBlock (y0 y1 : DataWord)
  deriving DecidableEq, Repr

/-- The state of the engine and of its one command port. -/
structure State where
  /-- The one context (R20), absent in lifecycle state `EMPTY` (R50). -/
  ctx : Option Context
  /-- `CMD` (R37): the command word the host has presented and the engine has not answered; `none` while the engine waits for
  a command (R213, R230). -/
  cmd : Option (BitVec 32)
  /-- `K[0..LEN-1]` (R37): the key buffer of the command presented. -/
  key : List Byte
  /-- `X0` (R37). -/
  x0 : DataWord
  /-- `X1` (R37). -/
  x1 : DataWord
  /-- `STATUS`, `Y0`, `Y1` (R37, R96): the last response; `none` until the first command completes (R50). -/
  response : Option Response
  deriving DecidableEq, Repr

/-- The faults: failed bounds checks of the engine's two word spaces.  R65 and R66 say that no index is ever out of range, so
no state that meets `State.Inv` (Safety.lean) raises one.  All are safe: the model stops where the spec's index argument does
not hold.  DESIGN CHOICE: assumption log 7. -/
inductive Fault where
  /-- `EXPAND` on a context with `t = 0`, and `ENCRYPT` and `DECRYPT` on a table with fewer than `2(r+1)` entries. Safe. -/
  | tableBounds
  /-- `EXPAND` on a context whose `c` words do not hold its `b` key bytes, or with `c = 0`.  Safe. -/
  | keyWordBounds
  deriving DecidableEq, Repr

/-- The refusals. -/
inductive Refusal where
  /-- Reserved for an instruction that has no meaning; no arm of `exec` raises it, since all four commands have theirs.  Safe. -/
  | notModelled (mnemonic : String)
  deriving DecidableEq, Repr

/-- The engine right after reset (R50, 70_reset_and_hazards.md R230): lifecycle state `EMPTY`, no response pending, waiting
for a command.  The command registers hold nothing; DESIGN CHOICE for `key`, `x0`, `x1` (assumption log 5, unsafe). -/
def State.reset : State where
  ctx := none
  cmd := none
  key := []
  x0 := 0
  x1 := 0
  response := none

end Sys2Proof.Machine
end

