-- ==== Sys2Proof/Machine/Primitives.lean ====
section
/-! DEFINITION. The word primitives (43_word_primitives.md R120 to R129), on words of `n` bits.

The engine uses them at `n` = 16, 32 and 64, the word sizes (R120). -/

namespace Sys2Proof.Machine

variable {n : Nat}

/-- `add_w(x, y) = (x + y) mod 2^w` (R121). -/
def addW (x y : BitVec n) : BitVec n := x + y

/-- `sub_w(x, y) = (x - y) mod 2^w` (R122). -/
def subW (x y : BitVec n) : BitVec n := x - y

/-- `x xor y` (R123). -/
def xorW (x y : BitVec n) : BitVec n := x ^^^ y

/-- The effective rotation amount `y & (w - 1)`: the mask belongs to the primitive (R126). -/
def rotAmount (n y : Nat) : Nat := y &&& (n - 1)

/-- `rotl_w(x, y)` by the shift pair of R124; the amount is any non-negative integer. -/
def rotl (x : BitVec n) (y : Nat) : BitVec n :=
  if rotAmount n y = 0 then x else (x <<< rotAmount n y) ||| (x >>> (n - rotAmount n y))

/-- `rotr_w(x, y)` by the shift pair of R125. -/
def rotr (x : BitVec n) (y : Nat) : BitVec n :=
  if rotAmount n y = 0 then x else (x >>> rotAmount n y) ||| (x <<< (n - rotAmount n y))

end Sys2Proof.Machine
end

