-- ==== Sys2Proof/Machine/Ops.lean ====
section
/-! DEFINITION. The named operations over the engine's state: presenting a command, ending it, raising an error, reset, and
the indexed access to the word spaces. -/

namespace Sys2Proof.Machine

/-- `STATUS` codes (60_exceptions.md R204): 8 bits, `OK` is zero. -/
def Error.code : Error → BitVec 8
  | .invalidParameter => 0x01
  | .notInitialized => 0x02
  | .illegalCommand => 0x03

/-- `STATUS` of a response (R96, R204). -/
def Response.status : Response → BitVec 8
  | .error e => e.code
  | .ok => 0x00
  | .okBlock _ _ => 0x00

/-- `Y0` of a response (R96): zero on an error and on `CREATE` and `EXPAND`. -/
def Response.y0 : Response → DataWord
  | .error _ => 0
  | .ok => 0
  | .okBlock y0 _ => y0

/-- `Y1` of a response (R96). -/
def Response.y1 : Response → DataWord
  | .error _ => 0
  | .ok => 0
  | .okBlock _ y1 => y1

/-- The command registers take a command (R37). -/
def State.drive (c : Command) (s : State) : State :=
  { s with cmd := some c.word, key := c.key, x0 := c.x0, x1 := c.x1 }

/-- The host hands a command to the engine (R37, R240).  "the engine accepts no command while one is in progress" (R244): the
host can neither replace a pending command nor cancel it.  That the command it offers meanwhile is dropped without a response
and changes nothing is the model's: 93_implementation_defined.md U14 leaves it open.  DESIGN CHOICE, unsafe: assumption log 12. -/
def State.present (c : Command) (s : State) : State :=
  match s.cmd with
  | none => s.drive c
  | some _ => s

/-- A command ends with a response (00_scope.md section 6.3): the response is driven and nothing of the command stays in the
command registers (R37, R38).  What they hold then is a DESIGN CHOICE, unsafe: assumption log 5. -/
def State.respond (r : Response) (s : State) : State :=
  { s with cmd := none, key := [], x0 := 0, x1 := 0, response := some r }

/-- Error entry, the engine's whole exception mechanism (60_exceptions.md R206): the response is the error's, the data outputs
are zero and the context is as before.  Nothing is saved and control goes nowhere, so there is no return operation (R208). -/
def State.raise (e : Error) (s : State) : State := s.respond (.error e)

/-- The reset input (70_reset_and_hazards.md R230, R231): a transition of its own between commands.  A command presented and
not yet run is abandoned without a response.  DESIGN CHOICE, safe: assumption log 11. -/
def State.resetInput (_ : State) : State := State.reset

/-- A successful `CREATE` or `EXPAND` writes the context as a whole (R45). -/
def State.withContext (c : Context) (s : State) : State := { s with ctx := some c }

/-- A successful `EXPAND` writes the whole table and no other field (42_expand_key_schedule.md R168). -/
def Context.withTable (c : Context) (S : List (Word c.w)) : Context := { c with S := some S }

/-- `S[i]` or `L[j]` (section 6.3).  The commands check their index range before they read (`Fault.tableBounds`,
`Fault.keyWordBounds`), so the zero stands for no element the engine reads. -/
def wordAt {n : Nat} (xs : List (BitVec n)) (i : Nat) : BitVec n := xs.getD i 0

end Sys2Proof.Machine
end

