-- ==== Sys2Proof/Machine/Operands.lean ====
section
/-! DEFINITION. Operand assembly (30_encoding.md R95, R96; 20_memory.md R61, R62): the block words in and out, and the key
bytes as words. -/

namespace Sys2Proof.Machine

/-- The word size that a field `W` names, if it is a supported one (41_create_resolver.md R141). -/
def wordSizeOf (W : BitVec 8) : Option WordSize :=
  if W = 16 then some .w16 else if W = 32 then some .w32 else if W = 64 then some .w64 else none

/-- `block[k] = Xk[w-1:0]` (R95): the bits at and above `w` are ignored. -/
def blockWord (w : WordSize) (x : DataWord) : Word w := x.setWidth w.bits

/-- `zext_XLEN(v)` (R96). -/
def zextXlen {w : WordSize} (v : Word w) : DataWord := v.setWidth Config.xlen

/-- `L[k div u] <- L[k div u] | (K[k] << (8·(k mod u)))` (R61) for the one byte `K[k] = x`. -/
def loadKeyByte (w : WordSize) (k : Nat) (x : Byte) (L : List (Word w)) : List (Word w) :=
  L.set (k / w.bytes) (wordAt L (k / w.bytes) ||| (x.setWidth w.bits <<< (8 * (k % w.bytes))))

/-- The byte loop of R61 from index `k` on. -/
def loadKeyBytes (w : WordSize) : Nat → List Byte → List (Word w) → List (Word w)
  | _, [], L => L
  | k, x :: xs, L => loadKeyBytes w (k + 1) xs (loadKeyByte w k x L)

/-- Step 1 of the key schedule (R61, R162): the key bytes as `c` words, little-endian, zero-padded. -/
def keyWords (w : WordSize) (c : Nat) (key : List Byte) : List (Word w) :=
  loadKeyBytes w 0 key (List.replicate c 0)

end Sys2Proof.Machine
end

