-- ==== Sys2Proof/Machine/Flags.lean ====
section
/-! DEFINITION. The two lifecycle flags and the lifecycle state (10_state.md R21, R22).  They are the engine's only flags:
there is no arithmetic condition code (R42), and no primitive of Machine/Primitives.lean computes one. -/

namespace Sys2Proof.Machine

/-- `RESOLVED` (R21): a `CREATE` has succeeded since reset. -/
def State.resolved (s : State) : Bool := s.ctx.isSome

/-- `KEYED` (R21): an `EXPAND` has succeeded since the last successful `CREATE`. -/
def State.keyed (s : State) : Bool := s.ctx.any fun c => c.S.isSome

/-- The lifecycle states (R21). -/
inductive Lifecycle where
  | empty
  | resolved
  | keyed
  deriving DecidableEq, Repr

/-- The lifecycle state, read from the two flags (R21). -/
def State.lifecycle (s : State) : Lifecycle :=
  if s.keyed then .keyed else if s.resolved then .resolved else .empty

end Sys2Proof.Machine
end

