-- ==== Sys2Proof/Machine/KeySchedule.lean ====
section
/-! DEFINITION. EXPAND, the key schedule (42_expand_key_schedule.md). -/

namespace Sys2Proof.Machine

/-- The transients of the mixing step (R34 to R36, R164), live inside one `EXPAND` only. -/
structure Mixing (w : WordSize) where
  /-- The running word `A`. -/
  a : Word w
  /-- The running word `B`. -/
  b : Word w
  /-- The index into `S`. -/
  i : Nat
  /-- The index into `L`. -/
  j : Nat
  /-- The table being built. -/
  S : List (Word w)
  /-- The key as words. -/
  L : List (Word w)
  deriving DecidableEq, Repr

variable {w : WordSize}

/-- Step 2 (R163): `n` entries, the first `p`, each next one the one before plus `q`. -/
def initTable (q : Word w) : Nat → Word w → List (Word w)
  | 0, _ => []
  | n + 1, p => p :: initTable q n (addW p q)

/-- One mixing iteration (R164): `A = S[i] = rotl(S[i] + A + B, 3)`, then `B = L[j] = rotl(L[j] + A + B, A + B)` with the new
`A` and the unreduced sum as amount (R166), then both indices advance. -/
def mixOnce (t c : Nat) (m : Mixing w) : Mixing w :=
  let a := rotl (addW (addW (wordAt m.S m.i) m.a) m.b) 3
  let b := rotl (addW (addW (wordAt m.L m.j) a) m.b) (a.toNat + m.b.toNat)
  { a := a, b := b, i := (m.i + 1) % t, j := (m.j + 1) % c, S := m.S.set m.i a, L := m.L.set m.j b }

/-- `k` mixing iterations. -/
def mixMany (t c : Nat) : Nat → Mixing w → Mixing w
  | 0, m => m
  | k + 1, m => mixMany t c k (mixOnce t c m)

/-- The transients when the mixing starts (R164, R165): `A = B = 0`, `i = j = 0`. -/
def mixStart (S L : List (Word w)) : Mixing w := { a := 0, b := 0, i := 0, j := 0, S := S, L := L }

/-- Steps 1 to 3 of R160: the expanded table of a context and a key, after exactly `3·max(t, c)` iterations (R166). -/
def keySchedule (ctx : Context) (key : List Byte) : List (Word ctx.w) :=
  let t := ctx.t.toNat
  let c := ctx.c.toNat
  (mixMany t c (3 * max t c) (mixStart (initTable ctx.Q t ctx.P) (keyWords ctx.w c key))).S

/-- The range argument of R65 and R66 for `EXPAND`, checked: `S` has an entry, `L` has one and holds every key byte. -/
def scheduleBounds (ctx : Context) : Option Fault :=
  if ctx.t.toNat = 0 then some .tableBounds
  else if ctx.c.toNat = 0 ∨ ctx.w.bytes * ctx.c.toNat < ctx.b.toNat then some .keyWordBounds
  else none

/-- The key buffer suits the context (R161): `LEN = ctx.b`, and the buffer the host supplied has that length, for a key is
"never truncated or padded to fit".  For a well-formed command (`Instr.payloadFits`) the second says nothing new.
DESIGN CHOICE, unsafe for ill-formed commands: assumption log 4. -/
def keyLengthOk (ctx : Context) (LEN : BitVec 8) (key : List Byte) : Bool :=
  LEN == ctx.b && key.length == LEN.toNat

/-- `EXPAND` (R160). -/
def execExpand (LEN : BitVec 8) (s : State) : Host.Outcome State Fault Refusal :=
  match s.ctx with
  | none => .next (s.raise .invalidParameter)
  | some ctx =>
    if keyLengthOk ctx LEN s.key then
      match scheduleBounds ctx with
      | some f => .fault f
      | none => .next ((s.withContext (ctx.withTable (keySchedule ctx s.key))).respond .ok)
    else .next (s.raise .invalidParameter)

end Sys2Proof.Machine
end

