-- ==== Sys2Proof/Machine/Resolver.lean ====
section
/-! DEFINITION. CREATE, the parameter resolver (41_create_resolver.md). -/

namespace Sys2Proof.Machine

/-- `c = max(1, ceil(8·b / w))` (R142). -/
def keyWordCount (w : WordSize) (b : Nat) : Nat := max 1 ((8 * b + w.bits - 1) / w.bits)

/-- `t = 2(r + 1)` (R143). -/
def tableLength (r : Nat) : Nat := 2 * (r + 1)

/-- `MAGIC_Q64` (R145, D10): one of the spec's two candidates, by the open choice of Config.  Assumption log 3. -/
def magicQ64 : BitVec 64 :=
  if Config.oddTakenLiterally then 0x9E3779B97F4A7C17 else 0x9E3779B97F4A7C15

/-- `P_w` of the table `MAGIC(w)` (R145). -/
def magicP : (w : WordSize) → Word w
  | .w16 => (0xB7E1 : BitVec 16)
  | .w32 => (0xB7E15163 : BitVec 32)
  | .w64 => (0xB7E151628AED2A6B : BitVec 64)

/-- `Q_w` of the table `MAGIC(w)` (R145). -/
def magicQ : (w : WordSize) → Word w
  | .w16 => (0x9E37 : BitVec 16)
  | .w32 => (0x9E3779B9 : BitVec 32)
  | .w64 => magicQ64

/-- The context that a successful `CREATE` writes (R146): every field from its own operands (R148), no table. -/
def resolve (w : WordSize) (R B : BitVec 8) : Context where
  w := w
  r := R
  b := B
  c := BitVec.ofNat 8 (keyWordCount w B.toNat)
  t := BitVec.ofNat 10 (tableLength R.toNat)
  P := magicP w
  Q := magicQ w
  S := none

/-- `CREATE w, r, b` (R140): an unsupported `W` raises `InvalidParameter` and writes nothing (R141, R147). -/
def execCreate (W R B : BitVec 8) (s : State) : Host.Outcome State Fault Refusal :=
  match wordSizeOf W with
  | none => .next (s.raise .invalidParameter)
  | some w => .next ((s.withContext (resolve w R B)).respond .ok)

end Sys2Proof.Machine
end

