-- ==== Sys2Proof/Machine/RoundTransform.lean ====
section
/-! DEFINITION. ENCRYPT and DECRYPT, the round transform (44_encrypt.md, 45_decrypt.md). -/

namespace Sys2Proof.Machine

variable {w : WordSize}

/-- Round `i` of `ENCRYPT` (R182): `A` is updated first and `B` uses the new `A`. -/
def encryptRound (S : List (Word w)) (i : Nat) (x : Word w × Word w) : Word w × Word w :=
  let a := addW (rotl (xorW x.1 x.2) x.2.toNat) (wordAt S (2 * i))
  let b := addW (rotl (xorW x.2 a) a.toNat) (wordAt S (2 * i + 1))
  (a, b)

/-- Rounds `1, 2, …, r` in ascending order (R182). -/
def encryptRounds (S : List (Word w)) : Nat → Word w × Word w → Word w × Word w
  | 0, x => x
  | r + 1, x => encryptRound S (r + 1) (encryptRounds S r x)

/-- The forward transform of R180: whitening (R181), then the rounds. -/
def encryptBlock (S : List (Word w)) (r : Nat) (x : Word w × Word w) : Word w × Word w :=
  encryptRounds S r (addW x.1 (wordAt S 0), addW x.2 (wordAt S 1))

/-- Iteration `i` of `DECRYPT` (R191): `B` is updated first, with the old `A`, and `A` uses the new `B`. -/
def decryptRound (S : List (Word w)) (i : Nat) (x : Word w × Word w) : Word w × Word w :=
  let b := xorW (rotr (subW x.2 (wordAt S (2 * i + 1))) x.1.toNat) x.1
  let a := xorW (rotr (subW x.1 (wordAt S (2 * i))) b.toNat) b
  (a, b)

/-- Iterations `r, r-1, …, 1` in descending order (R192). -/
def decryptRounds (S : List (Word w)) : Nat → Word w × Word w → Word w × Word w
  | 0, x => x
  | r + 1, x => decryptRounds S r (decryptRound S (r + 1) x)

/-- The inverse transform of R190: the rounds, then the two subtractions (R193). -/
def decryptBlock (S : List (Word w)) (r : Nat) (x : Word w × Word w) : Word w × Word w :=
  let y := decryptRounds S r x
  (subW y.1 (wordAt S 0), subW y.2 (wordAt S 1))

/-- What `ENCRYPT` and `DECRYPT` share: without a table, `NotInitialized` (R184, R194); with one whose indices `0..2r+1` are in
range (R65), the transformed block as the response and no context state written (R185). -/
def roundTransform (f : (w : WordSize) → List (Word w) → Nat → Word w × Word w → Word w × Word w) (s : State) :
    Host.Outcome State Fault Refusal :=
  match s.ctx with
  | none => .next (s.raise .notInitialized)
  | some ctx =>
    match ctx.S with
    | none => .next (s.raise .notInitialized)
    | some S =>
      if S.length < 2 * ctx.r.toNat + 2 then .fault .tableBounds
      else
        let y := f ctx.w S ctx.r.toNat (blockWord ctx.w s.x0, blockWord ctx.w s.x1)
        .next (s.respond (.okBlock (zextXlen y.1) (zextXlen y.2)))

/-- `ENCRYPT x0, x1` (R180). -/
def execEncrypt (s : State) : Host.Outcome State Fault Refusal :=
  roundTransform (fun _ S r x => encryptBlock S r x) s

/-- `DECRYPT x0, x1` (R190). -/
def execDecrypt (s : State) : Host.Outcome State Fault Refusal :=
  roundTransform (fun _ S r x => decryptBlock S r x) s

end Sys2Proof.Machine
end

