-- ==== Sys2Proof/Machine/Fetch.lean ====
section
/-! DEFINITION. Taking the command to run from the command registers, and placing a word there for the host's checks. -/

namespace Sys2Proof.Machine

/-- What the command port holds when a step begins. -/
inductive Accepted where
  /-- No command is pending (R213, R230). -/
  | idle
  /-- The command word decodes to no command (R97, R98). -/
  | illegal (why : Illegal)
  /-- A command to run (R99). -/
  | instr (i : Instr)
  deriving DecidableEq, Repr

/-- The engine takes the pending command word and decodes it: decode comes before every other check (60_exceptions.md R205). -/
def State.accept (s : State) : Accepted :=
  match s.cmd with
  | none => .idle
  | some word =>
    match decode word with
    | .error why => .illegal why
    | .ok i => .instr i

/-- The command whose word is `word` and whose payload is all zeros: as many zero key bytes as the word asks for. -/
def zeroPayload (word : BitVec 32) : Command where
  word := word
  key :=
    match decode word with
    | .ok i => List.replicate i.keyLength 0
    | .error _ => []
  x0 := 0
  x1 := 0

end Sys2Proof.Machine
end

