-- ==== Sys2Proof/Machine/Step.lean ====
section
/-! DEFINITION. One step: the engine runs the pending command to its response (20_memory.md R69). -/

namespace Sys2Proof.Machine

/-- One step.  With no command pending the engine is idle and holds its context (60_exceptions.md R213;
assumption log 1); a word that decodes to
no command answers `IllegalCommand` (R203); any other runs. -/
def step (s : State) : Host.Outcome State Fault Refusal :=
  match s.accept with
  | .idle => .next s
  | .illegal _ => .next (s.raise .illegalCommand)
  | .instr i => exec i s

/-- The host issues a command: it waits for the response of a command in progress, then presents this one, and the engine runs
it to its response (70_reset_and_hazards.md R244).  Between commands, where the wait is an idle step, this is the spec's
`step(state, command)` (00_scope.md R9, 10_state.md).  Assumption log 12. -/
def issue (c : Command) (s : State) : Host.Outcome State Fault Refusal :=
  match step s with
  | .next t => step (t.present c)
  | .fault f => .fault f
  | .refused r => .refused r

/-- The word `w` with an all-zero payload placed in the command registers, where `step` takes its next command.  It is for the
host's checks and no transition of the engine, so it does not ask whether a command is pending (assumption log 1). -/
def State.withFetchWord (s : State) (nbits w : Nat) : State := s.drive (zeroPayload (tableWord nbits w))

end Sys2Proof.Machine
end

