-- ==== Sys2Proof/Safety.lean ====
section
/-! DEFINITION. What a good state and a good command are, in the terms the statements use. -/

namespace Sys2Proof.Machine

/-- The fields of a context agree with each other: the derived fields are those of `w`, `r`, `b` (10_state.md R26 to R28, R45),
and the table, where there is one, has exactly `t` entries (R30). -/
abbrev Context.Wf (x : Context) : Prop :=
  x.c.toNat = keyWordCount x.w x.b.toNat ∧ x.t.toNat = tableLength x.r.toNat ∧ x.P = magicP x.w ∧ x.Q = magicQ x.w ∧
    ∀ S ∈ x.S, S.length = x.t.toNat

/-- The engine's invariant: the context, where there is one, is well-formed. -/
abbrev State.Inv (s : State) : Prop := ∀ x ∈ s.ctx, x.Wf

/-- The run of a list of commands the host issues one after the other, each after the response of the one before
(70_reset_and_hazards.md R244). -/
def issueAll : List Command → State → Host.Outcome State Fault Refusal
  | [], s => .next s
  | c :: cs, s =>
    match issue c s with
    | .next t => issueAll cs t
    | .fault f => .fault f
    | .refused r => .refused r

end Sys2Proof.Machine
end

