-- ==== Sys2Proof/Certificates/Slice0/Obligations.lean ====
section
/-! DEFINITION. The statements for the provers.  Each docstring names the rule of spec/ it formalises. -/

open Sys2Proof Sys2Proof.Machine

/-! ### Decoding and encoding (30_encoding.md) -/

/-- R92 to R99: a command word decodes to a command exactly when it is that command's encoding. -/
def Obligations.DecodeExactlyInvertsEncode : Prop :=
  ∀ (cmd : BitVec 32) (i : Instr), decode cmd = .ok i ↔ cmd = encode i

/-- R99: the four match and mask pairs say which words decode to which command. -/
def Obligations.DecodeFollowsMatchAndMask : Prop :=
  ∀ cmd : BitVec 32,
    ((∃ W R B, decode cmd = .ok (.create W R B)) ↔ cmd &&& 0xFF000000 = 0x10000000) ∧
    ((∃ LEN, decode cmd = .ok (.expand LEN)) ↔ cmd &&& 0xFFFFFF00 = 0x20000000) ∧
    (decode cmd = .ok .encrypt ↔ cmd &&& 0xFFFFFFFF = 0x30000000) ∧
    (decode cmd = .ok .decrypt ↔ cmd &&& 0xFFFFFFFF = 0x40000000)

/-- R97: a word with a reserved opcode is illegal, by that name. -/
def Obligations.ReservedOpcodesAreIllegal : Prop :=
  ∀ cmd : BitVec 32, cmd.toNat / 2 ^ 28 = 0 ∨ 5 ≤ cmd.toNat / 2 ^ 28 → decode cmd = .error .reservedOpcode

/-- R98: a word whose opcode names a command and whose reserved bits are not all zero is illegal, by that name. -/
def Obligations.ReservedBitsAreIllegal : Prop :=
  ∀ cmd : BitVec 32,
    (cmd.toNat / 2 ^ 28 = 1 ∧ cmd.toNat / 2 ^ 24 % 2 ^ 4 ≠ 0) ∨
    (cmd.toNat / 2 ^ 28 = 2 ∧ cmd.toNat / 2 ^ 8 % 2 ^ 20 ≠ 0) ∨
    (cmd.toNat / 2 ^ 28 = 3 ∧ cmd.toNat % 2 ^ 28 ≠ 0) ∨
    (cmd.toNat / 2 ^ 28 = 4 ∧ cmd.toNat % 2 ^ 28 ≠ 0) →
    decode cmd = .error .reservedBits

/-- Words written out in 30_encoding.md and 95_test_vectors.md sections 2.2, 2.3 and 4.3. -/
def Obligations.SpecWordsDecodeAsWritten : Prop :=
  decode 0x10200C10 = .ok (.create 32 12 16) ∧ decode 0x1010FFFF = .ok (.create 16 255 255) ∧
  decode 0x10080C10 = .ok (.create 8 12 16) ∧ decode 0x20000010 = .ok (.expand 16) ∧
  decode 0x30000000 = .ok .encrypt ∧ decode 0x40000000 = .ok .decrypt ∧
  decode 0x11200C10 = .error .reservedBits ∧ decode 0x20000110 = .error .reservedBits ∧
  decode 0x30000001 = .error .reservedBits ∧ decode 0x41000000 = .error .reservedBits ∧
  decode 0x00000000 = .error .reservedOpcode ∧ decode 0xFFFFFFFF = .error .reservedOpcode

/-! ### The step

The premise `s.cmd = none` of a statement about `issue` says that the engine is between commands.  A command issued while
another is pending waits for that one's response (R244): CommandsRunOneAtATime says so and leads to this case. -/

/-- A step runs the decoded command and adds nothing around it (20_memory.md R69). -/
def Obligations.StepRunsTheDecodedCommand : Prop :=
  ∀ (s : State) (word : BitVec 32) (i : Instr), s.cmd = some word → decode word = .ok i → step s = exec i s

/-- With no command pending a step changes nothing (the model's reading of R213 and R230, assumption log 1). -/
def Obligations.IdleStepHoldsEverything : Prop :=
  ∀ s : State, s.cmd = none → step s = .next s

/-- R97, R98, R203, R205: in every state between commands a word that decodes to no command answers `IllegalCommand`, whatever
its payload and whatever other error would apply, and changes no context. -/
def Obligations.IllegalWordsAnswerIllegalCommand : Prop :=
  ∀ (s : State) (c : Command) (why : Illegal), s.cmd = none → decode c.word = .error why →
    ∃ t, issue c s = .next t ∧ t.response = some (.error .illegalCommand) ∧ t.ctx = s.ctx

/-- R9, R38, R39: the response and the state after a command depend on the context and the command alone, not on the response
before nor on what the command registers held before. -/
def Obligations.CommandsSeeOnlyContextAndPayload : Prop :=
  ∀ (s s' t : State) (c : Command), s.cmd = none → s'.cmd = none → s.ctx = s'.ctx → issue c s = .next t →
    issue c s' = .next t

/-- R69, R72, R250: from every state that meets the invariant a step answers a next state, and a pending command has its response
then and is no longer pending. -/
def Obligations.EveryCommandIsAnswered : Prop :=
  ∀ s : State, s.Inv → ∃ t, step s = .next t ∧ (s.cmd ≠ none → t.cmd = none ∧ t.response ≠ none)

/-- R38, with the model's choice of what the idle command registers hold (assumption log 5): after a command, run or issued,
nothing of it stands in the command registers, the key buffer included. -/
def Obligations.NothingOfACommandOutlivesIt : Prop :=
  ∀ (s t : State) (c : Command) (i : Instr), exec i s = .next t ∨ issue c s = .next t →
    t.cmd = none ∧ t.key = [] ∧ t.x0 = 0 ∧ t.x1 = 0

/-! ### Reset, invariant, lifecycle, errors -/

/-- R50, R230: after reset there is no context and no table, no command and no response is pending. -/
def Obligations.ResetIsEmpty : Prop :=
  State.reset.resolved = false ∧ State.reset.keyed = false ∧ State.reset.lifecycle = .empty ∧
    State.reset.ctx = none ∧ State.reset.cmd = none ∧ State.reset.response = none

/-- R230, R231: the reset input leads to the reset state from every state, between commands and with a command pending, one
just presented and not yet run included (that such a command is abandoned too is the reading of assumption log 11); the step
that follows runs nothing (how an idle step looks is the model's choice, assumption log 1). -/
def Obligations.ResetInputAbandonsTheCommand : Prop :=
  ∀ (s : State) (c : Command), s.resetInput = State.reset ∧ step s.resetInput = .next State.reset ∧
    (s.present c).resetInput = State.reset ∧ step (s.present c).resetInput = .next State.reset

/-- The invariant holds after reset. -/
def Obligations.ResetMeetsInvariant : Prop := State.reset.Inv

/-- R26, R27, R28, R30, R45, R148: every step keeps the fields of the context in agreement with `w`, `r` and `b`, and the
table at exactly `t` entries. -/
def Obligations.StepKeepsInvariant : Prop :=
  ∀ s t : State, s.Inv → step s = .next t → t.Inv

/-- R7, R26, R27, R30: in every state that meets the invariant `c` is 1 to `C_MAX`, `t` is even and 2 to `T_MAX`, and the table
has `2(r+1)` entries. -/
def Obligations.InvariantBoundsTheDerivedFields : Prop :=
  ∀ (s : State) (x : Context), s.Inv → s.ctx = some x →
    1 ≤ x.c.toNat ∧ x.c.toNat ≤ Config.cMax ∧ 2 ≤ x.t.toNat ∧ x.t.toNat ≤ Config.tMax ∧ x.t.toNat % 2 = 0 ∧
    ∀ S, x.S = some S → S.length = 2 * (x.r.toNat + 1)

/-- R22: the lifecycle changes only by a successful `CREATE` (to `RESOLVED`) or a successful `EXPAND` (to `KEYED`, and not from
`EMPTY`), and no step leads back to `EMPTY`. -/
def Obligations.LifecycleFollowsTheTable : Prop :=
  ∀ (s t : State) (c : Command) (i : Instr), s.cmd = none → decode c.word = .ok i → issue c s = .next t →
    match i, t.response with
    | .create _ _ _, some .ok => t.lifecycle = .resolved
    | .expand _, some .ok => s.lifecycle ≠ .empty ∧ t.lifecycle = .keyed
    | .encrypt, some (.okBlock _ _) => s.lifecycle = .keyed ∧ t.lifecycle = .keyed
    | .decrypt, some (.okBlock _ _) => s.lifecycle = .keyed ∧ t.lifecycle = .keyed
    | _, some (.error _) => t.lifecycle = s.lifecycle
    | _, _ => False

/-- R21: `KEYED` implies `RESOLVED`, and the lifecycle state is the one the two flags name. -/
def Obligations.KeyedImpliesResolved : Prop :=
  ∀ s : State, (s.keyed = true → s.resolved = true) ∧
    (s.lifecycle = .keyed ↔ s.keyed = true) ∧ (s.lifecycle = .empty ↔ s.resolved = false)

/-- R206 (b): a command that ends in an error changes no state of the context, no flag and no entry of the table. -/
def Obligations.ErrorsChangeNoState : Prop :=
  ∀ (s t : State) (c : Command) (e : Error), s.cmd = none → issue c s = .next t → t.response = some (.error e) →
    t.ctx = s.ctx ∧ t.resolved = s.resolved ∧ t.keyed = s.keyed

/-- R201, R202, R203: which command can raise which error. -/
def Obligations.ErrorsBelongToTheirCommands : Prop :=
  ∀ (s t : State) (c : Command) (e : Error), s.cmd = none → issue c s = .next t → t.response = some (.error e) →
    match e with
    | .illegalCommand => ∃ why, decode c.word = .error why
    | .invalidParameter => (∃ W R B, decode c.word = .ok (.create W R B)) ∨ ∃ LEN, decode c.word = .ok (.expand LEN)
    | .notInitialized => (decode c.word = .ok .encrypt ∨ decode c.word = .ok .decrypt) ∧ s.keyed = false

/-- R96, R204: the status codes, and the zero data outputs of every response but a block. -/
def Obligations.ResponseCodesAndDataOutputs : Prop :=
  Response.ok.status = 0x00 ∧ (∀ y0 y1, (Response.okBlock y0 y1).status = 0x00) ∧
  (Response.error .invalidParameter).status = 0x01 ∧ (Response.error .notInitialized).status = 0x02 ∧
  (Response.error .illegalCommand).status = 0x03 ∧
  Response.ok.y0 = 0 ∧ Response.ok.y1 = 0 ∧ (∀ e, (Response.error e).y0 = 0 ∧ (Response.error e).y1 = 0) ∧
  ∀ y0 y1, (Response.okBlock y0 y1).y0 = y0 ∧ (Response.okBlock y0 y1).y1 = y1

/-! ### CREATE (41_create_resolver.md) -/

/-- R140, R141, R146, R148: `CREATE` with a supported word size completes in every state, writes every field of the context
from its own operands, leaves no table and answers `OK`. -/
def Obligations.CreateWritesTheWholeContext : Prop :=
  ∀ (s : State) (w : WordSize) (W R B : BitVec 8), W.toNat = w.bits →
    ∃ t x, exec (.create W R B) s = .next t ∧ t.ctx = some x ∧ t.response = some .ok ∧
      x.w = w ∧ x.r = R ∧ x.b = B ∧ x.c.toNat = max 1 ((8 * B.toNat + w.bits - 1) / w.bits) ∧
      x.t.toNat = 2 * (R.toNat + 1) ∧ x.P = magicP x.w ∧ x.Q = magicQ x.w ∧ x.S = none ∧
      t.resolved = true ∧ t.keyed = false

/-- R141, R147: every other value of `W` raises `InvalidParameter` and writes nothing. -/
def Obligations.CreateRefusesOtherWordSizes : Prop :=
  ∀ (s : State) (W R B : BitVec 8), W.toNat ≠ 16 → W.toNat ≠ 32 → W.toNat ≠ 64 →
    ∃ t, exec (.create W R B) s = .next t ∧ t.response = some (.error .invalidParameter) ∧ t.ctx = s.ctx

/-- R142: `c = max(1, ceil(8·b / w))` is the least number of words, at least one, that holds `b` bytes; in bytes per word it is
`(b + u - 1) div u` for `b > 0` and 1 for `b = 0`; and the rule's examples. -/
def Obligations.KeyWordCountIsLeastThatFits : Prop :=
  (∀ (w : WordSize) (b : Nat), 1 ≤ keyWordCount w b ∧ 8 * b ≤ w.bits * keyWordCount w b ∧
    (∀ c, 1 ≤ c → 8 * b ≤ w.bits * c → keyWordCount w b ≤ c) ∧
    keyWordCount w b = if 0 < b then (b + w.bytes - 1) / w.bytes else 1) ∧
  keyWordCount .w32 16 = 4 ∧ keyWordCount .w32 5 = 2 ∧ keyWordCount .w32 0 = 1 ∧ keyWordCount .w16 255 = 128 ∧
  keyWordCount .w64 9 = 2 ∧ keyWordCount .w64 8 = 1

/-- R145: the table of magic constants; for `w = 64` the second is one of the spec's two candidates (assumption log 3). -/
def Obligations.MagicConstantsAreTheTable : Prop :=
  magicP .w16 = 0xB7E1#16 ∧ magicQ .w16 = 0x9E37#16 ∧ magicP .w32 = 0xB7E15163#32 ∧ magicQ .w32 = 0x9E3779B9#32 ∧
  magicP .w64 = 0xB7E151628AED2A6B#64 ∧
  (magicQ .w64 = 0x9E3779B97F4A7C15#64 ∨ magicQ .w64 = 0x9E3779B97F4A7C17#64)

/-- R144, R145: every magic constant is odd, whichever candidate `Q_64` is. -/
def Obligations.MagicConstantsAreOdd : Prop :=
  ∀ w : WordSize, (magicP w).toNat % 2 = 1 ∧ (magicQ w).toNat % 2 = 1

/-! ### The word primitives (43_word_primitives.md) -/

/-- R121: addition wraps modulo `2^w`, is commutative and associative, with the rule's corner cases and example. -/
def Obligations.AdditionWraps : Prop :=
  (∀ (w : WordSize) (x y z : Word w),
    (addW x y).toNat = (x.toNat + y.toNat) % 2 ^ w.bits ∧ addW x y = addW y x ∧
    addW (addW x y) z = addW x (addW y z) ∧ addW x 0 = x ∧ (x.toNat = 2 ^ w.bits - 1 → addW x 1 = 0)) ∧
  addW 0xB7E15163#32 0x9E3779B9#32 = 0x5618CB1C#32

/-- R122: subtraction takes the non-negative remainder and undoes addition, with the rule's corner cases and example. -/
def Obligations.SubtractionWraps : Prop :=
  (∀ (w : WordSize) (x y : Word w),
    (subW x y).toNat = (if y.toNat ≤ x.toNat then x.toNat - y.toNat else x.toNat + 2 ^ w.bits - y.toNat) ∧
    subW (addW x y) y = x ∧ subW x x = 0 ∧ (subW (0 : Word w) 1).toNat = 2 ^ w.bits - 1) ∧
  subW 0x0000#16 0x7865#16 = 0x879B#16

/-- R124: bit `k` of `x` moves to bit `(k + n) mod w`, for every amount, `n` the amount modulo `w`; with `n = 0` the word is
unchanged; and the rule's examples. -/
def Obligations.RotateLeftMovesEveryBit : Prop :=
  (∀ (w : WordSize) (x : Word w) (y k : Nat), k < w.bits →
    (rotl x y).getLsbD ((k + y % w.bits) % w.bits) = x.getLsbD k ∧ (y % w.bits = 0 → rotl x y = x)) ∧
  rotl 0x80000001#32 1 = 0x00000003#32 ∧ rotl 0x12345678#32 0xDEADBEEF = 0x2B3C091A#32

/-- R125: bit `k` of `x` moves to bit `(k - n) mod w`; with `n = 0` the word is unchanged, and else it is rotated left by
`w - n`; and the rule's examples. -/
def Obligations.RotateRightMovesEveryBit : Prop :=
  (∀ (w : WordSize) (x : Word w) (y k : Nat), k < w.bits →
    (rotr x y).getLsbD ((k + w.bits - y % w.bits) % w.bits) = x.getLsbD k ∧ (y % w.bits = 0 → rotr x y = x) ∧
    (1 ≤ y % w.bits → rotr x y = rotl x (w.bits - y % w.bits))) ∧
  rotr 0x80000001#32 1 = 0xC0000000#32 ∧ rotr 0x12345678#32 0xDEADBEEF = 0xACF02468#32

/-- R127: the rotations undo each other for every word and every amount, with the rule's corner cases. -/
def Obligations.RotationsUndoEachOther : Prop :=
  ∀ (w : WordSize) (x : Word w) (y : Nat), rotr (rotl x y) y = x ∧ rotl (rotr x y) y = x ∧
    rotl x w.bits = x ∧ rotl x (w.bits + 1) = rotl x 1 ∧ rotl (0 : Word w) y = 0 ∧
    rotl (BitVec.allOnes w.bits) y = BitVec.allOnes w.bits

/-- R128: the amount may be the unreduced sum or the reduced one. -/
def Obligations.RotationAmountMayBeASum : Prop :=
  ∀ (w : WordSize) (x a b : Word w), rotl x (a.toNat + b.toNat) = rotl x (addW a b).toNat

/-! ### EXPAND (42_expand_key_schedule.md, 20_memory.md R61) -/

/-- R160, R161, R166, R168: on a resolved context and with a key of exactly `b` bytes `EXPAND` completes, keyed or not before;
it writes a table of `t` entries, which `3·max(t, c)` mixing iterations make of the initial table and the key words, and no
other field of the context. -/
def Obligations.ExpandRebuildsTheTable : Prop :=
  ∀ (s : State) (x : Context) (LEN : BitVec 8), s.ctx = some x → x.Wf → LEN = x.b → s.key.length = LEN.toNat →
    ∃ t S, exec (.expand LEN) s = .next t ∧ t.response = some .ok ∧ t.keyed = true ∧
      t.ctx = some { x with S := some S } ∧ S.length = x.t.toNat ∧
      S = (mixMany x.t.toNat x.c.toNat (3 * max x.t.toNat x.c.toNat)
        (mixStart (initTable x.Q x.t.toNat x.P) (keyWords x.w x.c.toNat s.key))).S

/-- The frame of `EXPAND` (R168): `w`, `r`, `b`, `c`, `t`, `P` and `Q` are as before. -/
def Obligations.ExpandWritesOnlyTheTable : Prop :=
  ∀ (s t : State) (x : Context) (LEN : BitVec 8), s.ctx = some x → exec (.expand LEN) s = .next t →
    t.ctx = some x ∨ ∃ S, t.ctx = some { x with S := some S }

/-- R161: with no context, or with a length that is not `b`, `EXPAND` raises `InvalidParameter` and changes no context. -/
def Obligations.ExpandRefusesWrongLengths : Prop :=
  ∀ (s : State) (LEN : BitVec 8), s.ctx = none ∨ (∃ x, s.ctx = some x ∧ LEN ≠ x.b) →
    ∃ t, exec (.expand LEN) s = .next t ∧ t.response = some (.error .invalidParameter) ∧ t.ctx = s.ctx

/-- The model's own choice (assumption log 4): a key buffer that does not hold `LEN` bytes is answered like a wrong length. -/
def Obligations.ExpandRefusesIllFormedKeyBuffers : Prop :=
  ∀ (s : State) (LEN : BitVec 8), (Instr.expand LEN).payloadFits s.key = false →
    ∃ t, exec (.expand LEN) s = .next t ∧ t.response = some (.error .invalidParameter) ∧ t.ctx = s.ctx

/-- R61: byte `p` of `L[m]` is key byte `u·m + p`, and zero where the key has no such byte; and the rule's example. -/
def Obligations.KeyBytesLandInTheirLanes : Prop :=
  (∀ (w : WordSize) (c : Nat) (key : List Byte) (m p : Nat), key.length ≤ w.bytes * c → m < c → p < w.bytes →
    (keyWords w c key).length = c ∧
    (wordAt (keyWords w c key) m).extractLsb' (8 * p) 8 = key.getD (w.bytes * m + p) 0) ∧
  keyWords .w32 2 [0x01, 0x02, 0x03, 0x04, 0x05] = ([0x04030201, 0x00000005] : List (Word .w32))

/-- R163: entry `k` of the table before mixing is `(P + k·Q) mod 2^w`. -/
def Obligations.TableStartsAsArithmeticSequence : Prop :=
  ∀ (w : WordSize) (p q : Word w) (t k : Nat), k < t →
    (initTable q t p).length = t ∧ (wordAt (initTable q t p) k).toNat = (p.toNat + k * q.toNat) % 2 ^ w.bits

/-- R164, R165, R166: the mixing starts from `A = B = 0`, and iteration `k` works at `i = k mod t` and `j = k mod c`: the first
assignment reads the old `S[i]`, `A`, `B`, the second the old `L[j]`, the new `A`, the old `B`. -/
def Obligations.MixingIterationFollowsTheRule : Prop :=
  ∀ (w : WordSize) (t c k : Nat) (S L : List (Word w)),
    let m := mixMany t c k (mixStart S L)
    let m' := mixMany t c (k + 1) (mixStart S L)
    m'.a = rotl (addW (addW (wordAt m.S (k % t)) m.a) m.b) 3 ∧
    m'.b = rotl (addW (addW (wordAt m.L (k % c)) m'.a) m.b) (m'.a.toNat + m.b.toNat) ∧
    m'.S = m.S.set (k % t) m'.a ∧ m'.L = m.L.set (k % c) m'.b ∧
    (mixMany t c 0 (mixStart S L)) = { a := 0, b := 0, i := 0, j := 0, S := S, L := L }

/-- R169: the table after a successful `EXPAND`, and the whole context with it, is a function of `w`, `r`, `b` and the key: the
table before, and whether there was one, has no influence. -/
def Obligations.ExpandForgetsTheOldTable : Prop :=
  ∀ (s s' t : State) (x x' : Context) (LEN : BitVec 8), s.ctx = some x → s'.ctx = some x' → x.Wf → x'.Wf →
    x.w = x'.w → x.r = x'.r → x.b = x'.b → s.key = s'.key → exec (.expand LEN) s = .next t → t.response = some .ok →
    ∃ t', exec (.expand LEN) s' = .next t' ∧ t'.response = some .ok ∧ t'.ctx = t.ctx

/-- R173: the worked example RC5-16/0/0 with the empty key. -/
def Obligations.ExpandWorkedExample : Prop :=
  ∃ t, exec (.expand 0) { State.reset with ctx := some (resolve .w16 0 0) } = .next t ∧
    t.ctx = some ((resolve .w16 0 0).withTable [0x7865#16, 0x33F4#16])

/-! ### ENCRYPT and DECRYPT (44_encrypt.md, 45_decrypt.md) -/

/-- R181, R182, R183, R185: on a context whose table holds every round key `ENCRYPT` completes with the block that whitening and
`r` ascending rounds give, each round updating `A` first; the context is as before. -/
def Obligations.EncryptIsTheForwardTransform : Prop :=
  ∀ (s : State) (x : Context) (S : List (Word x.w)), s.ctx = some x → x.S = some S → 2 * x.r.toNat + 2 ≤ S.length →
    ∃ (t : State) (A B : Nat → Word x.w), exec .encrypt s = .next t ∧ t.ctx = s.ctx ∧
      A 0 = addW (blockWord x.w s.x0) (wordAt S 0) ∧ B 0 = addW (blockWord x.w s.x1) (wordAt S 1) ∧
      (∀ i, 1 ≤ i → i ≤ x.r.toNat →
        A i = addW (rotl (xorW (A (i - 1)) (B (i - 1))) (B (i - 1)).toNat) (wordAt S (2 * i)) ∧
        B i = addW (rotl (xorW (B (i - 1)) (A i)) (A i).toNat) (wordAt S (2 * i + 1))) ∧
      t.response = some (.okBlock (zextXlen (A x.r.toNat)) (zextXlen (B x.r.toNat)))

/-- R191, R192, R193, R194: `DECRYPT` completes with the block that `r` descending rounds, each updating `B` first, and the two
subtractions give; the context is as before.  `A i`, `B i` are the words on entry to the iteration for round `i`. -/
def Obligations.DecryptIsTheInverseTransform : Prop :=
  ∀ (s : State) (x : Context) (S : List (Word x.w)), s.ctx = some x → x.S = some S → 2 * x.r.toNat + 2 ≤ S.length →
    ∃ (t : State) (A B : Nat → Word x.w), exec .decrypt s = .next t ∧ t.ctx = s.ctx ∧
      A x.r.toNat = blockWord x.w s.x0 ∧ B x.r.toNat = blockWord x.w s.x1 ∧
      (∀ i, 1 ≤ i → i ≤ x.r.toNat →
        B (i - 1) = xorW (rotr (subW (B i) (wordAt S (2 * i + 1))) (A i).toNat) (A i) ∧
        A (i - 1) = xorW (rotr (subW (A i) (wordAt S (2 * i))) (B (i - 1)).toNat) (B (i - 1))) ∧
      t.response = some (.okBlock (zextXlen (subW (A 0) (wordAt S 0))) (zextXlen (subW (B 0) (wordAt S 1))))

/-- R186, R196: with no rounds the transforms are the whitening alone. -/
def Obligations.ZeroRoundsOnlyWhiten : Prop :=
  ∀ (w : WordSize) (S : List (Word w)) (a b : Word w),
    encryptBlock S 0 (a, b) = (addW a (wordAt S 0), addW b (wordAt S 1)) ∧
    decryptBlock S 0 (a, b) = (subW a (wordAt S 0), subW b (wordAt S 1))

/-- R184, R194, R202: without a table `ENCRYPT` and `DECRYPT` raise `NotInitialized` and change no context. -/
def Obligations.TransformsNeedATable : Prop :=
  ∀ s : State, s.keyed = false →
    (∃ t, exec .encrypt s = .next t ∧ t.response = some (.error .notInitialized) ∧ t.ctx = s.ctx) ∧
    (∃ t, exec .decrypt s = .next t ∧ t.response = some (.error .notInitialized) ∧ t.ctx = s.ctx)

/-- The only stop of `ENCRYPT` and `DECRYPT`, the model's own (assumption log 7): a table too short for the round count, which
the invariant rules out.  R65 says that every index is in range, so the spec has no such stop. -/
def Obligations.TransformsCheckTheTableBounds : Prop :=
  (∀ (s : State) (x : Context) (S : List (Word x.w)), s.ctx = some x → x.S = some S → S.length < 2 * x.r.toNat + 2 →
    exec .encrypt s = .fault .tableBounds ∧ exec .decrypt s = .fault .tableBounds ∧ ¬ s.Inv) ∧
  (∀ (s : State) (f : Fault), exec .encrypt s = .fault f ∨ exec .decrypt s = .fault f →
    f = .tableBounds ∧ ∃ x S, s.ctx = some x ∧ x.S = some S ∧ S.length < 2 * x.r.toNat + 2) ∧
  ∀ (s : State) (why : Refusal), exec .encrypt s ≠ .refused why ∧ exec .decrypt s ≠ .refused why

/-- The frame of `ENCRYPT` and `DECRYPT` (R185, R194): whatever they answer, the context, its table and the flags are as
before. -/
def Obligations.TransformsLeaveTheContext : Prop :=
  ∀ s t : State, exec .encrypt s = .next t ∨ exec .decrypt s = .next t →
    t.ctx = s.ctx ∧ t.resolved = s.resolved ∧ t.keyed = s.keyed

/-- R95: the bits of `X0` and `X1` at and above `w` are ignored.  The outcomes are equal as a whole, `X0` and `X1` of the next
state included, because a response clears those registers in this model (assumption log 5). -/
def Obligations.HighInputBitsAreIgnored : Prop :=
  ∀ (s : State) (x : Context) (x0 x1 : DataWord), s.ctx = some x →
    x0.toNat % 2 ^ x.w.bits = s.x0.toNat % 2 ^ x.w.bits → x1.toNat % 2 ^ x.w.bits = s.x1.toNat % 2 ^ x.w.bits →
    exec .encrypt { s with x0 := x0, x1 := x1 } = exec .encrypt s ∧
    exec .decrypt { s with x0 := x0, x1 := x1 } = exec .decrypt s

/-- R96: the bits of `Y0` and `Y1` at and above `w` are zero. -/
def Obligations.OutputsAreZeroExtended : Prop :=
  ∀ (s t : State) (x : Context) (y0 y1 : DataWord), s.ctx = some x →
    exec .encrypt s = .next t ∨ exec .decrypt s = .next t → t.response = some (.okBlock y0 y1) →
    y0.toNat < 2 ^ x.w.bits ∧ y1.toNat < 2 ^ x.w.bits

/-- R195: in every state with a table that holds every round key, whatever its contents, `DECRYPT` of what `ENCRYPT` answered
answers the block back and `ENCRYPT` of what `DECRYPT` answered answers the block back (the block reduced to `w` bits), at once
or in any later state `u` with the same context, that is, with no successful `CREATE` or `EXPAND` in between. -/
def Obligations.EncryptAndDecryptUndoEachOther : Prop :=
  ∀ (s : State) (x : Context) (S : List (Word x.w)) (e d : Command), s.cmd = none → s.ctx = some x → x.S = some S →
    2 * x.r.toNat + 2 ≤ S.length → decode e.word = .ok .encrypt → decode d.word = .ok .decrypt →
    (∃ t y0 y1, issue e s = .next t ∧ t.ctx = s.ctx ∧ t.response = some (.okBlock y0 y1) ∧
      ∀ u : State, u.cmd = none → u.ctx = s.ctx → ∃ v, issue { d with x0 := y0, x1 := y1 } u = .next v ∧
        v.response = some (.okBlock (zextXlen (blockWord x.w e.x0)) (zextXlen (blockWord x.w e.x1)))) ∧
    (∃ t x0 x1, issue d s = .next t ∧ t.ctx = s.ctx ∧ t.response = some (.okBlock x0 x1) ∧
      ∀ u : State, u.cmd = none → u.ctx = s.ctx → ∃ v, issue { e with x0 := x0, x1 := x1 } u = .next v ∧
        v.response = some (.okBlock (zextXlen (blockWord x.w d.x0)) (zextXlen (blockWord x.w d.x1))))

/-- R187, R197: the worked example RC5-16/1/3, with bits above `w` set in the inputs of `ENCRYPT` (R95). -/
def Obligations.RoundTransformWorkedExample : Prop :=
  let x := (resolve .w16 1 3).withTable [0x82C6#16, 0xEB48#16, 0xA07B#16, 0xB988#16]
  (∃ t, exec .encrypt { State.reset with ctx := some x, x0 := 0xFFFFFFFFFFFF1234, x1 := 0x15678 } = .next t ∧
    t.response = some (.okBlock 0x75B5 0x482E)) ∧
  (∃ t, exec .decrypt { State.reset with ctx := some x, x0 := 0x75B5, x1 := 0x482E } = .next t ∧
    t.response = some (.okBlock 0x1234 0x5678))

/-- R43, R185: the answer of `ENCRYPT` and `DECRYPT` is a function of the block, `w`, `r` and the entries `S[0..2r+1]`: the other
fields of the context and any further entry have no influence. -/
def Obligations.TransformsReadOnlyTheRoundKeys : Prop :=
  ∀ (s : State) (x : Context) (b c : BitVec 8) (t : BitVec 10) (P Q : Word x.w) (S S' : List (Word x.w)),
    s.ctx = some x → x.S = some S → 2 * x.r.toNat + 2 ≤ S.length → 2 * x.r.toNat + 2 ≤ S'.length →
    (∀ i, i < 2 * x.r.toNat + 2 → wordAt S i = wordAt S' i) →
    let s' := { s with ctx := some { x with b := b, c := c, t := t, P := P, Q := Q, S := some S' } }
    (∃ u u', exec .encrypt s = .next u ∧ exec .encrypt s' = .next u' ∧ u.response = u'.response) ∧
    (∃ u u', exec .decrypt s = .next u ∧ exec .decrypt s' = .next u' ∧ u.response = u'.response)

/-! ### Sequences of commands (70_reset_and_hazards.md) -/

/-- R232, R233: bring-up works: from every state between commands, and from every state that meets the invariant with a command
still pending (for which `issue` waits first: R244, in the form of assumption log 12), a `CREATE` with a supported word size answers `OK` and leaves `RESOLVED`, an `EXPAND` with a key of exactly `b`
bytes answers `OK` and leaves `KEYED`, and an `ENCRYPT` and a `DECRYPT` after them answer blocks. -/
def Obligations.BringUpSucceedsInOrder : Prop :=
  ∀ (s : State) (w : WordSize) (W R B : BitVec 8) (c k e d : Command), W.toNat = w.bits →
    decode c.word = .ok (.create W R B) → decode k.word = .ok (.expand B) → k.wellFormed = true →
    decode e.word = .ok .encrypt → decode d.word = .ok .decrypt →
    s.cmd = none ∨ s.Inv →
    ∃ (t1 t2 t3 t4 : State) (y0 y1 z0 z1 : DataWord),
      issue c s = .next t1 ∧ t1.response = some .ok ∧ t1.lifecycle = .resolved ∧
      issue k t1 = .next t2 ∧ t2.response = some .ok ∧ t2.lifecycle = .keyed ∧
      issue e t2 = .next t3 ∧ t3.response = some (.okBlock y0 y1) ∧ t3.lifecycle = .keyed ∧
      issue d t3 = .next t4 ∧ t4.response = some (.okBlock z0 z1) ∧ t4.lifecycle = .keyed ∧
      issueAll [c, k, e, d] s = .next t4

/-- R242: a successful `CREATE`, even one with the parameters the context has, discards the key: the next `ENCRYPT` or
`DECRYPT` answers `NotInitialized`. -/
def Obligations.CreateDiscardsTheKey : Prop :=
  ∀ (s t : State) (W R B : BitVec 8) (c e : Command), decode c.word = .ok (.create W R B) → issue c s = .next t →
    t.response = some .ok → (decode e.word = .ok .encrypt ∨ decode e.word = .ok .decrypt) →
    ∃ u, issue e t = .next u ∧ u.response = some (.error .notInitialized)

/-- R147, R170: a keyed context goes on as before after a failing `CREATE` or `EXPAND`: the next command is answered as if the
failed one had not been sent (R208). -/
def Obligations.FailedCommandsLeaveNoTrace : Prop :=
  ∀ (s t u : State) (c d : Command) (e : Error), issue c s = .next t → t.response = some (.error e) →
    issue d s = .next u → issue d t = .next u

/-- R240, R244: the engine accepts a command exactly when none is pending, and the host can neither replace a pending one nor
cancel it.  That a command offered meanwhile is dropped and changes nothing is the model's choice (assumption log 12; U14
leaves it open), and so is that the last response stays in place when a command is accepted (assumption log 6). -/
def Obligations.PendingCommandIsNeverReplaced : Prop :=
  ∀ (s : State) (c : Command),
    (s.cmd ≠ none → s.present c = s) ∧
    (s.cmd = none → (s.present c).cmd = some c.word ∧ (s.present c).key = c.key ∧ (s.present c).x0 = c.x0 ∧
      (s.present c).x1 = c.x1 ∧ (s.present c).ctx = s.ctx ∧ (s.present c).response = s.response)

/-- R69, R72, R244: one command at a time.  Whenever a step answers a next state the engine is ready again; a command that was
pending has run to its response, and that step is not changed by a command the host tries to present meanwhile (the model's
choice, assumption log 12: such a command is dropped; U14 leaves it open).  A command issued while another is pending is the
command issued on the state that one leaves, and there it is accepted and run (that `issue` waits is R244's rule for the host, in
the form of assumption log 12). -/
def Obligations.CommandsRunOneAtATime : Prop :=
  ∀ (s t : State) (c : Command), step s = .next t →
    t.cmd = none ∧ (s.cmd ≠ none → t.response ≠ none ∧ step (s.present c) = .next t) ∧
    issue c s = issue c t ∧ issue c t = step (t.present c) ∧ (t.present c).cmd = some c.word
end

