-- ==== Sys2Proof/Laws/Decode.lean ====
section
/-! SUPPORT. Command words as numbers: the fields, the encodings, and which format the opcode selects. -/

namespace Sys2Proof

theorem field_toNat (c : BitVec 32) (lo len : Nat) : (field c lo len).toNat = c.toNat / 2 ^ lo % 2 ^ len := by
  simp [field, BitVec.extractLsb'_toNat, Nat.shiftRight_eq_div_pow]

theorem field_eq_iff (c : BitVec 32) (lo len : Nat) (v : BitVec len) :
    field c lo len = v ↔ c.toNat / 2 ^ lo % 2 ^ len = v.toNat := by
  rw [← BitVec.toNat_inj, field_toNat]

theorem encode_create_toNat (W R B : BitVec 8) :
    (encode (.create W R B)).toNat = 0x10000000 + W.toNat * 2 ^ 16 + R.toNat * 2 ^ 8 + B.toNat := by
  have hW := W.isLt
  have hR := R.isLt
  have hB := B.isLt
  simp only [encode, BitVec.toNat_append]
  rw [← Nat.shiftLeft_add_eq_or_of_lt hB, ← Nat.shiftLeft_add_eq_or_of_lt hR, ← Nat.shiftLeft_add_eq_or_of_lt hW]
  simp [Nat.shiftLeft_eq]
  omega

theorem encode_expand_toNat (LEN : BitVec 8) : (encode (.expand LEN)).toNat = 0x20000000 + LEN.toNat := by
  simp only [encode, BitVec.toNat_append]
  rw [← Nat.shiftLeft_add_eq_or_of_lt LEN.isLt]
  simp [Nat.shiftLeft_eq]

/-- The opcode selects the format (R91): everything `decode` can do. -/
theorem decode_cases (c : BitVec 32) :
    (c.toNat / 2 ^ 28 = 1 ∧ decode c = decodeCreate c) ∨ (c.toNat / 2 ^ 28 = 2 ∧ decode c = decodeExpand c) ∨
    (c.toNat / 2 ^ 28 = 3 ∧ decode c = decodeBlock .encrypt c) ∨
    (c.toNat / 2 ^ 28 = 4 ∧ decode c = decodeBlock .decrypt c) ∨
    ((c.toNat / 2 ^ 28 = 0 ∨ 5 ≤ c.toNat / 2 ^ 28) ∧ decode c = .error .reservedOpcode) := by
  have hc := c.isLt
  have hopc : ∀ v : BitVec 4, field c 28 4 = v ↔ c.toNat / 2 ^ 28 = v.toNat := by
    intro v
    rw [field_eq_iff]
    omega
  have h1 := hopc 0x1
  have h2 := hopc 0x2
  have h3 := hopc 0x3
  have h4 := hopc 0x4
  simp only [show (0x1 : BitVec 4).toNat = 1 from rfl, show (0x2 : BitVec 4).toNat = 2 from rfl,
    show (0x3 : BitVec 4).toNat = 3 from rfl, show (0x4 : BitVec 4).toNat = 4 from rfl] at h1 h2 h3 h4
  unfold decode
  simp only [h1, h2, h3, h4]
  split_ifs with e1 e2 e3 e4
  · exact .inl ⟨e1, rfl⟩
  · exact .inr (.inl ⟨e2, rfl⟩)
  · exact .inr (.inr (.inl ⟨e3, rfl⟩))
  · exact .inr (.inr (.inr (.inl ⟨e4, rfl⟩)))
  · exact .inr (.inr (.inr (.inr ⟨by omega, rfl⟩)))

end Sys2Proof
end

