-- ==== Sys2Proof/Laws/State.lean ====
section
/-! SUPPORT. One lemma per field per update of the state and the context, and what each update does to the two flags. -/

namespace Sys2Proof.Machine

variable (s : State) (c : Command) (r : Response) (e : Error) (x : Context) (S : List (Word x.w)) (w : WordSize)
  (R B : BitVec 8)

/-! ### `drive` -/

@[simp] theorem drive_ctx : (s.drive c).ctx = s.ctx := rfl
@[simp] theorem drive_cmd : (s.drive c).cmd = some c.word := rfl
@[simp] theorem drive_key : (s.drive c).key = c.key := rfl
@[simp] theorem drive_x0 : (s.drive c).x0 = c.x0 := rfl
@[simp] theorem drive_x1 : (s.drive c).x1 = c.x1 := rfl
@[simp] theorem drive_response : (s.drive c).response = s.response := rfl

/-! ### `present`: accepted when no command is pending, else nothing -/

theorem present_of_ready {s : State} (h : s.cmd = none) (c : Command) : s.present c = s.drive c := by
  simp [State.present, h]

theorem present_of_pending {s : State} {word : BitVec 32} (h : s.cmd = some word) (c : Command) : s.present c = s := by
  simp [State.present, h]

@[simp] theorem present_ctx : (s.present c).ctx = s.ctx := by
  cases h : s.cmd <;> simp [State.present, h]

@[simp] theorem present_response : (s.present c).response = s.response := by
  cases h : s.cmd <;> simp [State.present, h]

/-! ### `respond` -/

@[simp] theorem respond_ctx : (s.respond r).ctx = s.ctx := rfl
@[simp] theorem respond_cmd : (s.respond r).cmd = none := rfl
@[simp] theorem respond_key : (s.respond r).key = [] := rfl
@[simp] theorem respond_x0 : (s.respond r).x0 = 0 := rfl
@[simp] theorem respond_x1 : (s.respond r).x1 = 0 := rfl
@[simp] theorem respond_response : (s.respond r).response = some r := rfl

/-! ### `raise` -/

@[simp] theorem raise_ctx : (s.raise e).ctx = s.ctx := rfl
@[simp] theorem raise_cmd : (s.raise e).cmd = none := rfl
@[simp] theorem raise_key : (s.raise e).key = [] := rfl
@[simp] theorem raise_x0 : (s.raise e).x0 = 0 := rfl
@[simp] theorem raise_x1 : (s.raise e).x1 = 0 := rfl
@[simp] theorem raise_response : (s.raise e).response = some (.error e) := rfl

/-! ### `withContext` -/

@[simp] theorem withContext_ctx : (s.withContext x).ctx = some x := rfl
@[simp] theorem withContext_cmd : (s.withContext x).cmd = s.cmd := rfl
@[simp] theorem withContext_key : (s.withContext x).key = s.key := rfl
@[simp] theorem withContext_x0 : (s.withContext x).x0 = s.x0 := rfl
@[simp] theorem withContext_x1 : (s.withContext x).x1 = s.x1 := rfl
@[simp] theorem withContext_response : (s.withContext x).response = s.response := rfl

/-! ### `Context.withTable` -/

@[simp] theorem withTable_w : (x.withTable S).w = x.w := rfl
@[simp] theorem withTable_r : (x.withTable S).r = x.r := rfl
@[simp] theorem withTable_b : (x.withTable S).b = x.b := rfl
@[simp] theorem withTable_c : (x.withTable S).c = x.c := rfl
@[simp] theorem withTable_t : (x.withTable S).t = x.t := rfl
@[simp] theorem withTable_P : (x.withTable S).P = x.P := rfl
@[simp] theorem withTable_Q : (x.withTable S).Q = x.Q := rfl
@[simp] theorem withTable_S : (x.withTable S).S = some S := rfl

/-! ### `resolve` -/

@[simp] theorem resolve_w : (resolve w R B).w = w := rfl
@[simp] theorem resolve_r : (resolve w R B).r = R := rfl
@[simp] theorem resolve_b : (resolve w R B).b = B := rfl
@[simp] theorem resolve_c : (resolve w R B).c = BitVec.ofNat 8 (keyWordCount w B.toNat) := rfl
@[simp] theorem resolve_t : (resolve w R B).t = BitVec.ofNat 10 (tableLength R.toNat) := rfl
@[simp] theorem resolve_P : (resolve w R B).P = magicP w := rfl
@[simp] theorem resolve_Q : (resolve w R B).Q = magicQ w := rfl
@[simp] theorem resolve_S : (resolve w R B).S = none := rfl

/-! ### The flags depend on the context alone -/

@[simp] theorem drive_resolved : (s.drive c).resolved = s.resolved := rfl
@[simp] theorem drive_keyed : (s.drive c).keyed = s.keyed := rfl
@[simp] theorem present_resolved : (s.present c).resolved = s.resolved := by simp [State.resolved]
@[simp] theorem present_keyed : (s.present c).keyed = s.keyed := by simp [State.keyed]
@[simp] theorem respond_resolved : (s.respond r).resolved = s.resolved := rfl
@[simp] theorem respond_keyed : (s.respond r).keyed = s.keyed := rfl
@[simp] theorem raise_resolved : (s.raise e).resolved = s.resolved := rfl
@[simp] theorem raise_keyed : (s.raise e).keyed = s.keyed := rfl
@[simp] theorem withContext_resolved : (s.withContext x).resolved = true := rfl
@[simp] theorem withContext_keyed : (s.withContext x).keyed = x.S.isSome := rfl

end Sys2Proof.Machine
end

