-- ==== Sys2Proof/Laws/Words.lean ====
section
/-! SUPPORT. The small lemmas of the word sizes, the rotation amount and the indexed access. -/

namespace Sys2Proof.Machine

@[simp] theorem bits_w16 : WordSize.w16.bits = 16 := rfl
@[simp] theorem bits_w32 : WordSize.w32.bits = 32 := rfl
@[simp] theorem bits_w64 : WordSize.w64.bits = 64 := rfl
@[simp] theorem bytes_w16 : WordSize.w16.bytes = 2 := rfl
@[simp] theorem bytes_w32 : WordSize.w32.bytes = 4 := rfl
@[simp] theorem bytes_w64 : WordSize.w64.bytes = 8 := rfl

theorem bits_pos (w : WordSize) : 0 < w.bits := by cases w <;> decide

theorem bytes_pos (w : WordSize) : 0 < w.bytes := by cases w <;> decide

theorem bits_eq_eight_mul_bytes (w : WordSize) : w.bits = 8 * w.bytes := by cases w <;> decide

theorem bits_le_xlen (w : WordSize) : w.bits ≤ Config.xlen := by cases w <;> decide

/-- The masked amount never reaches the width, so neither shift of a rotation does. -/
theorem rotAmount_lt {n : Nat} (hn : 0 < n) (y : Nat) : rotAmount n y < n := by
  have : rotAmount n y ≤ n - 1 := Nat.and_le_right
  omega

/-- The mask is the remainder, since every word size is a power of two (R126). -/
theorem rotAmount_eq_mod (w : WordSize) (y : Nat) : rotAmount w.bits y = y % w.bits := by
  cases w
  · exact Nat.and_two_pow_sub_one_eq_mod y 4
  · exact Nat.and_two_pow_sub_one_eq_mod y 5
  · exact Nat.and_two_pow_sub_one_eq_mod y 6

/-- The shift pair of R124 is the library's rotation. -/
theorem rotl_eq_rotateLeft (w : WordSize) (x : Word w) (y : Nat) : rotl x y = x.rotateLeft y := by
  unfold rotl
  rw [rotAmount_eq_mod]
  simp only [BitVec.rotateLeft, BitVec.rotateLeftAux]
  split
  · rename_i h
    rw [h]
    apply BitVec.eq_of_getLsbD_eq
    intro i hi
    simp
  · rfl

/-- The shift pair of R125 is the library's rotation. -/
theorem rotr_eq_rotateRight (w : WordSize) (x : Word w) (y : Nat) : rotr x y = x.rotateRight y := by
  unfold rotr
  rw [rotAmount_eq_mod]
  simp only [BitVec.rotateRight, BitVec.rotateRightAux]
  split
  · rename_i h
    rw [h]
    apply BitVec.eq_of_getLsbD_eq
    intro i hi
    simp
  · rfl

/-- A word handed out and handed back is the same word (R95, R96). -/
theorem blockWord_zextXlen {w : WordSize} (v : Word w) : blockWord w (zextXlen v) = v := by
  have hv := v.isLt
  have hw := Nat.pow_le_pow_right (n := 2) (by omega) (bits_le_xlen w)
  apply BitVec.eq_of_toNat_eq
  simp only [blockWord, zextXlen, BitVec.toNat_setWidth]
  rw [Nat.mod_eq_of_lt (a := v.toNat) (by omega), Nat.mod_eq_of_lt (by omega)]

/-- A field `W` names a word size exactly when it is that size in bits. -/
theorem wordSizeOf_eq_some {W : BitVec 8} {w : WordSize} (h : wordSizeOf W = some w) : W.toNat = w.bits := by
  unfold wordSizeOf at h
  split at h
  · cases h; subst_vars; rfl
  · split at h
    · cases h; subst_vars; rfl
    · split at h
      · cases h; subst_vars; rfl
      · cases h

/-- The three supported values of `W` name their word sizes (R141). -/
theorem wordSizeOf_of_toNat {W : BitVec 8} {w : WordSize} (h : W.toNat = w.bits) : wordSizeOf W = some w := by
  cases w <;> simp only [bits_w16, bits_w32, bits_w64] at h
  · rw [show W = 16 from BitVec.eq_of_toNat_eq h]; rfl
  · rw [show W = 32 from BitVec.eq_of_toNat_eq h]; rfl
  · rw [show W = 64 from BitVec.eq_of_toNat_eq h]; rfl

@[simp] theorem wordAt_cons_zero {n : Nat} (x : BitVec n) (xs : List (BitVec n)) : wordAt (x :: xs) 0 = x := rfl

@[simp] theorem wordAt_cons_succ {n : Nat} (x : BitVec n) (xs : List (BitVec n)) (i : Nat) :
    wordAt (x :: xs) (i + 1) = wordAt xs i := rfl

/-- In range, an access reads the entry. -/
theorem wordAt_of_lt {n : Nat} {xs : List (BitVec n)} {i : Nat} (h : i < xs.length) : wordAt xs i = xs[i] := by
  simp [wordAt, h]

end Sys2Proof.Machine
end

