-- ==== Sys2Proof/Laws/KeySchedule.lean ====
section
/-! SUPPORT. What the parts of the key schedule do to lengths, and everything `EXPAND` can answer. -/

namespace Sys2Proof.Machine

variable {w : WordSize}

@[simp] theorem initTable_length (q : Word w) (n : Nat) (p : Word w) : (initTable q n p).length = n := by
  induction n generalizing p with
  | zero => rfl
  | succ n ih => simp [initTable, ih]

@[simp] theorem loadKeyByte_length (k : Nat) (x : Byte) (L : List (Word w)) : (loadKeyByte w k x L).length = L.length := by
  simp [loadKeyByte]

@[simp] theorem loadKeyBytes_length (k : Nat) (xs : List Byte) (L : List (Word w)) :
    (loadKeyBytes w k xs L).length = L.length := by
  induction xs generalizing k L with
  | nil => rfl
  | cons x xs ih => simp [loadKeyBytes, ih]

@[simp] theorem keyWords_length (c : Nat) (key : List Byte) : (keyWords w c key).length = c := by simp [keyWords]

@[simp] theorem mixOnce_table_length (t c : Nat) (m : Mixing w) : (mixOnce t c m).S.length = m.S.length := by
  simp [mixOnce]

@[simp] theorem mixMany_table_length (t c k : Nat) (m : Mixing w) : (mixMany t c k m).S.length = m.S.length := by
  induction k generalizing m with
  | zero => rfl
  | succ k ih => simp [mixMany, ih]

/-- The table has exactly `t` entries (R30). -/
@[simp] theorem keySchedule_length (x : Context) (key : List Byte) : (keySchedule x key).length = x.t.toNat := by
  simp [keySchedule, mixStart]

/-- Another way to take `k + 1` iterations: the last one last. -/
theorem mixMany_succ (t c k : Nat) (m : Mixing w) : mixMany t c (k + 1) m = mixOnce t c (mixMany t c k m) := by
  induction k generalizing m with
  | zero => rfl
  | succ k ih => rw [mixMany, ih, mixMany]

/-- The indices of iteration `k` are `k mod t` and `k mod c` (R166). -/
theorem mixMany_indices (t c k : Nat) (S L : List (Word w)) :
    (mixMany t c k (mixStart S L)).i = k % t ∧ (mixMany t c k (mixStart S L)).j = k % c := by
  induction k with
  | zero => simp [mixMany, mixStart]
  | succ k ih =>
    rw [mixMany_succ]
    simp [mixOnce, ih]

/-- In a well-formed context every index of the key schedule is in range (R65, R66). -/
theorem scheduleBounds_eq_none {x : Context} (h : x.Wf) : scheduleBounds x = none := by
  obtain ⟨hc, ht, -, -, -⟩ := h
  unfold scheduleBounds
  rw [if_neg (by rw [ht]; unfold tableLength; omega), if_neg]
  rw [hc]
  cases x.w <;> simp [keyWordCount] <;> omega

/-- Everything `EXPAND` can answer. -/
theorem execExpand_cases (LEN : BitVec 8) (s : State) :
    (s.ctx = none ∧ execExpand LEN s = .next (s.raise .invalidParameter)) ∨
    ∃ x, s.ctx = some x ∧
      ((keyLengthOk x LEN s.key = false ∧ execExpand LEN s = .next (s.raise .invalidParameter)) ∨
       (keyLengthOk x LEN s.key = true ∧ ∃ f, scheduleBounds x = some f ∧ execExpand LEN s = .fault f) ∨
       (keyLengthOk x LEN s.key = true ∧ scheduleBounds x = none ∧
         execExpand LEN s = .next ((s.withContext (x.withTable (keySchedule x s.key))).respond .ok))) := by
  cases h : s.ctx with
  | none => exact .inl ⟨rfl, by simp [execExpand, h]⟩
  | some x =>
    refine .inr ⟨x, rfl, ?_⟩
    cases hk : keyLengthOk x LEN s.key with
    | false => exact .inl ⟨rfl, by simp [execExpand, h, hk]⟩
    | true =>
      cases hb : scheduleBounds x with
      | some f => exact .inr (.inl ⟨rfl, f, rfl, by simp [execExpand, h, hk, hb]⟩)
      | none => exact .inr (.inr ⟨rfl, rfl, by simp [execExpand, h, hk, hb]⟩)

end Sys2Proof.Machine
end

