-- ==== Sys2Proof/Laws/PerInstr.lean ====
section
/-! SUPPORT. Per-instruction statements: every command's word matches its own row of the opcode table and no other row
(30_encoding.md R99). -/

namespace Sys2Proof.Laws.MatchMask

/-- The mask of the command's row of spec/opcode_table.json. -/
def mask : Instr → BitVec 32
  | .create _ _ _ => 0xFF000000
  | .expand _ => 0xFFFFFF00
  | .encrypt => 0xFFFFFFFF
  | .decrypt => 0xFFFFFFFF

/-- The match value of the command's row. -/
def pattern : Instr → BitVec 32
  | .create _ _ _ => 0x10000000
  | .expand _ => 0x20000000
  | .encrypt => 0x30000000
  | .decrypt => 0x40000000

/-- The command's word matches its row. -/
def Statement (i : Instr) : Prop := encode i &&& mask i = pattern i

theorem create (W R B : BitVec 8) : Statement (.create W R B) := by
  apply BitVec.eq_of_getLsbD_eq
  intro k hk
  simp only [encode, mask, pattern, BitVec.getLsbD_and, BitVec.getLsbD_append]
  interval_cases k <;> simp

theorem expand (LEN : BitVec 8) : Statement (.expand LEN) := by
  apply BitVec.eq_of_getLsbD_eq
  intro k hk
  simp only [encode, mask, pattern, BitVec.getLsbD_and, BitVec.getLsbD_append]
  interval_cases k <;> simp

theorem encrypt : Statement .encrypt := by unfold Statement; decide

theorem decrypt : Statement .decrypt := by unfold Statement; decide

end Sys2Proof.Laws.MatchMask
end

