-- ==== Sys2Proof/Laws/Step.lean ====
section
/-! SUPPORT. Everything `CREATE`, `ENCRYPT`, `DECRYPT` and a step can answer. -/

namespace Sys2Proof.Machine

/-- Everything `CREATE` can answer. -/
theorem execCreate_cases (W R B : BitVec 8) (s : State) :
    (wordSizeOf W = none ∧ execCreate W R B s = .next (s.raise .invalidParameter)) ∨
    ∃ w, wordSizeOf W = some w ∧ execCreate W R B s = .next ((s.withContext (resolve w R B)).respond .ok) := by
  cases h : wordSizeOf W with
  | none => exact .inl ⟨rfl, by simp [execCreate, h]⟩
  | some w => exact .inr ⟨w, rfl, by simp [execCreate, h]⟩

/-- Everything the shared round transform can answer. -/
theorem roundTransform_cases (f : (w : WordSize) → List (Word w) → Nat → Word w × Word w → Word w × Word w) (s : State) :
    (s.keyed = false ∧ roundTransform f s = .next (s.raise .notInitialized)) ∨
    ∃ x S, s.ctx = some x ∧ x.S = some S ∧
      ((S.length < 2 * x.r.toNat + 2 ∧ roundTransform f s = .fault .tableBounds) ∨
       (2 * x.r.toNat + 2 ≤ S.length ∧ ∃ y0 y1, roundTransform f s = .next (s.respond (.okBlock y0 y1)) ∧
         y0 = zextXlen (f x.w S x.r.toNat (blockWord x.w s.x0, blockWord x.w s.x1)).1 ∧
         y1 = zextXlen (f x.w S x.r.toNat (blockWord x.w s.x0, blockWord x.w s.x1)).2)) := by
  cases hx : s.ctx with
  | none => exact .inl ⟨by simp [State.keyed, hx], by simp [roundTransform, hx]⟩
  | some x =>
    cases hS : x.S with
    | none => exact .inl ⟨by simp [State.keyed, hx, hS], by simp [roundTransform, hx, hS]⟩
    | some S =>
      refine .inr ⟨x, S, rfl, hS, ?_⟩
      by_cases hb : S.length < 2 * x.r.toNat + 2
      · exact .inl ⟨hb, by simp [roundTransform, hx, hS, hb]⟩
      · exact .inr ⟨by omega, _, _, by simp only [roundTransform, hx, hS, hb, if_false], rfl, rfl⟩

/-- With a table that holds every round key the shared round transform answers its block. -/
theorem roundTransform_next (f : (w : WordSize) → List (Word w) → Nat → Word w × Word w → Word w × Word w) {s : State}
    {x : Context} {S : List (Word x.w)} (hx : s.ctx = some x) (hS : x.S = some S) (hl : 2 * x.r.toNat + 2 ≤ S.length) :
    roundTransform f s =
      .next (s.respond (.okBlock (zextXlen (f x.w S x.r.toNat (blockWord x.w s.x0, blockWord x.w s.x1)).1)
        (zextXlen (f x.w S x.r.toNat (blockWord x.w s.x0, blockWord x.w s.x1)).2))) := by
  simp only [roundTransform, hx, hS]
  rw [if_neg (by omega)]

/-- Everything a step can be: idle, an illegal command word, or the run of the decoded command. -/
theorem step_cases (s : State) :
    (s.cmd = none ∧ step s = .next s) ∨
    (∃ word why, s.cmd = some word ∧ decode word = .error why ∧ step s = .next (s.raise .illegalCommand)) ∨
    ∃ word i, s.cmd = some word ∧ decode word = .ok i ∧ step s = exec i s := by
  cases hc : s.cmd with
  | none => exact .inl ⟨rfl, by simp [step, State.accept, hc]⟩
  | some word =>
    cases hd : decode word with
    | error why => exact .inr (.inl ⟨word, why, rfl, hd, by simp [step, State.accept, hc, hd]⟩)
    | ok i => exact .inr (.inr ⟨word, i, rfl, hd, by simp [step, State.accept, hc, hd]⟩)

/-- Everything `exec` can answer with a next state: an error of the command's own, a context written, a table written, a block.
-/
theorem exec_next_cases {i : Instr} {s t : State} (h : exec i s = .next t) :
    (∃ e, t = s.raise e ∧
      ((e = .invalidParameter ∧ ((∃ W R B, i = .create W R B) ∨ ∃ LEN, i = .expand LEN)) ∨
       (e = .notInitialized ∧ (i = .encrypt ∨ i = .decrypt) ∧ s.keyed = false))) ∨
    (∃ W R B w, i = .create W R B ∧ wordSizeOf W = some w ∧ t = (s.withContext (resolve w R B)).respond .ok) ∨
    (∃ LEN x, i = .expand LEN ∧ s.ctx = some x ∧ t = (s.withContext (x.withTable (keySchedule x s.key))).respond .ok) ∨
    ∃ y0 y1, (i = .encrypt ∨ i = .decrypt) ∧ s.keyed = true ∧ t = s.respond (.okBlock y0 y1) := by
  have transform : ∀ f, roundTransform f s = .next t →
      (t = s.raise .notInitialized ∧ s.keyed = false) ∨ ∃ y0 y1, s.keyed = true ∧ t = s.respond (.okBlock y0 y1) := by
    intro f hf
    rcases roundTransform_cases f s with ⟨hk, h1⟩ | ⟨x, S, hx, hS, ⟨-, h1⟩ | ⟨-, y0, y1, h1, -⟩⟩ <;> rw [h1] at hf <;>
      cases hf
    · exact .inl ⟨rfl, hk⟩
    · exact .inr ⟨y0, y1, by simp [State.keyed, hx, hS], rfl⟩
  cases i with
  | create W R B =>
    rcases execCreate_cases W R B s with ⟨-, h1⟩ | ⟨w, hw, h1⟩ <;> cases h1.symm.trans h
    · exact .inl ⟨_, rfl, .inl ⟨rfl, .inl ⟨_, _, _, rfl⟩⟩⟩
    · exact .inr (.inl ⟨_, _, _, _, rfl, hw, rfl⟩)
  | expand LEN =>
    rcases execExpand_cases LEN s with ⟨-, h1⟩ | ⟨x, hx, ⟨-, h1⟩ | ⟨-, f, -, h1⟩ | ⟨-, -, h1⟩⟩ <;> cases h1.symm.trans h
    · exact .inl ⟨_, rfl, .inl ⟨rfl, .inr ⟨_, rfl⟩⟩⟩
    · exact .inl ⟨_, rfl, .inl ⟨rfl, .inr ⟨_, rfl⟩⟩⟩
    · exact .inr (.inr (.inl ⟨_, x, rfl, hx, rfl⟩))
  | encrypt =>
    rcases transform _ h with ⟨h1, h2⟩ | ⟨y0, y1, h1, h2⟩
    · exact .inl ⟨_, h1, .inr ⟨rfl, .inl rfl, h2⟩⟩
    · exact .inr (.inr (.inr ⟨y0, y1, .inl rfl, h1, h2⟩))
  | decrypt =>
    rcases transform _ h with ⟨h1, h2⟩ | ⟨y0, y1, h1, h2⟩
    · exact .inl ⟨_, h1, .inr ⟨rfl, .inr rfl, h2⟩⟩
    · exact .inr (.inr (.inr ⟨y0, y1, .inr rfl, h1, h2⟩))

/-- Between commands, issuing a command is one step of the engine that has accepted it. -/
theorem issue_of_ready {s : State} (hs : s.cmd = none) (c : Command) : issue c s = step (s.drive c) := by
  simp [issue, step, State.accept, hs, State.present]

/-- A command whose word decodes, issued between commands, is run on the state that holds it. -/
theorem issue_of_decode_ok {c : Command} {i : Instr} (h : decode c.word = .ok i) {s : State} (hs : s.cmd = none) :
    issue c s = exec i (s.drive c) := by
  simp [issue_of_ready hs, step, State.accept, h]

/-- A command whose word decodes to no command, issued between commands. -/
theorem issue_of_decode_error {c : Command} {why : Illegal} (h : decode c.word = .error why) {s : State}
    (hs : s.cmd = none) : issue c s = .next ((s.drive c).raise .illegalCommand) := by
  simp [issue_of_ready hs, step, State.accept, h]

/-- `resolve` loses nothing to the stored widths: `c` fits in 8 bits and `t` in 10 (R26, R27). -/
theorem keyWordCount_le (w : WordSize) {b : Nat} (hb : b ≤ Config.bMax) : keyWordCount w b ≤ Config.cMax := by
  simp only [Config.bMax, Config.cMax] at *
  cases w <;> simp only [keyWordCount, bits_w16, bits_w32, bits_w64] <;> omega

theorem tableLength_le {r : Nat} (hr : r ≤ Config.rMax) : tableLength r ≤ Config.tMax := by
  simp only [Config.rMax, Config.tMax, tableLength] at *
  omega

/-- The context a successful `CREATE` writes is well-formed. -/
theorem resolve_wf (w : WordSize) (R B : BitVec 8) : (resolve w R B).Wf := by
  have hc := keyWordCount_le w (b := B.toNat) (by have := B.isLt; simp only [Config.bMax]; omega)
  have ht := tableLength_le (r := R.toNat) (by have := R.isLt; simp only [Config.rMax]; omega)
  simp only [Config.cMax, Config.tMax] at hc ht
  refine ⟨?_, ?_, rfl, rfl, fun S hS => by cases hS⟩
  · simp only [resolve_c, resolve_w, resolve_b, BitVec.toNat_ofNat]; omega
  · simp only [resolve_t, resolve_r, BitVec.toNat_ofNat]; omega

end Sys2Proof.Machine
end

