-- ==== Sys2Proof/Tests/Slice0.lean ====
section
/-! SUPPORT. The model's own tests.  Every expected value is the spec's: 95_test_vectors.md or the worked examples of the rules.

First the smoke test of WellFormed, then decoding, then at most two tests per instruction, then one witness per statement that
has hypotheses. -/

namespace Sys2Proof.Tests

open Sys2Proof.Machine

/-! ### WellFormed -/

theorem test_payload_too_short_refused : (Instr.expand 3).payloadFits [0xAA, 0xBB] = false := by decide

theorem test_payload_too_long_refused : (Instr.expand 0).payloadFits [0xAA] = false := by decide

theorem test_payload_of_create_refused : (Instr.create 32 12 16).payloadFits [0xAA] = false := by decide

theorem test_payload_of_blocks_refused :
    Instr.encrypt.payloadFits [0xAA] = false ∧ Instr.decrypt.payloadFits [0xAA] = false := by decide

theorem test_payload_accepted :
    (Instr.expand 3).payloadFits [0xAA, 0xBB, 0xCC] = true ∧ (Instr.create 8 0 0).payloadFits [] = true ∧
    Instr.encrypt.payloadFits [] = true ∧ Instr.decrypt.payloadFits [] = true := by decide

theorem test_command_refused : Command.wellFormed ⟨0x20000003, [0xAA], 0, 0⟩ = false := by decide

/-! ### Decoding: words written out from 30_encoding.md R92 to R94 and 95_test_vectors.md sections 2.2 and 4.3 -/

/-- `OPC` 0001, reserved 0000, `W` 00100000, `R` 00001100, `B` 00010000. -/
theorem test_decode_create : decode 0b00010000001000000000110000010000 = .ok (.create 32 12 16) := by rfl

/-- `OPC` 0010, reserved twenty zeros, `LEN` 00010000. -/
theorem test_decode_expand : decode 0b00100000000000000000000000010000 = .ok (.expand 16) := by rfl

theorem test_decode_encrypt : decode 0b00110000000000000000000000000000 = .ok .encrypt := by rfl

theorem test_decode_decrypt : decode 0b01000000000000000000000000000000 = .ok .decrypt := by rfl

theorem test_encode_words :
    encode (.create 32 20 17) = 0x10201411 ∧ encode (.expand 255) = 0x200000FF ∧ encode .encrypt = 0x30000000 ∧
    encode .decrypt = 0x40000000 := by decide

theorem test_table_words :
    decodeTableWord 32 0x1010FFFF = some (.create 16 255 255) ∧ decodeTableWord 32 0x11200C10 = none ∧
    decodeTableWord 32 0x50000000 = none := by decide

/-! ### Small states -/

/-- A key as it stands in 95_test_vectors.md. -/
def key2 : List Byte :=
  [0x91, 0x5F, 0x46, 0x19, 0xBE, 0x41, 0xB2, 0x51, 0x63, 0x55, 0xA5, 0x01, 0x10, 0xA9, 0xCE, 0x91]

/-- The state after `CREATE w, r, b` from reset. -/
def created (w : WordSize) (r b : BitVec 8) : State := (State.reset.withContext (resolve w r b)).respond .ok

/-- The context after `CREATE w, r, b` and `EXPAND key`. -/
def keyedContext (w : WordSize) (r b : BitVec 8) (key : List Byte) : Context :=
  (resolve w r b).withTable (keySchedule (resolve w r b) key)

/-- The state after `CREATE w, r, b` and `EXPAND key`, with the block `x0, x1` in the command registers. -/
def keyed (w : WordSize) (r b : BitVec 8) (key : List Byte) (x0 x1 : DataWord) : State :=
  { State.reset with ctx := some (keyedContext w r b key), x0 := x0, x1 := x1 }

/-- The context of RC5-64/1/8 with a value of `Q_64` named. -/
def context64 (q : BitVec 64) : Context :=
  { w := .w64, r := 1, b := 8, c := 1, t := 4, P := (0xB7E151628AED2A6B : BitVec 64), Q := q, S := none }

/-- A state with that context and the key of program P5. -/
def resolved64 (q : BitVec 64) : State :=
  { State.reset with ctx := some (context64 q), key := [1, 2, 3, 4, 5, 6, 7, 8] }

/-- The response a step answers with. -/
def answer (o : Host.Outcome State Fault Refusal) : Option Response :=
  match o with
  | .next t => t.response
  | .fault _ => none
  | .refused _ => none

/-- The context a step leaves. -/
def contextAfter (o : Host.Outcome State Fault Refusal) : Option Context :=
  match o with
  | .next t => t.ctx
  | .fault _ => none
  | .refused _ => none

/-! ### The primitives (95_test_vectors.md sections 3.4 and 4.1) -/

theorem test_rotations :
    rotl 0x80000001#32 0x21 = 0x00000003#32 ∧ rotr 0x80000001#32 0x21 = 0xC0000000#32 ∧
    rotl 0x12345678#32 0xDEADBEEF = 0x2B3C091A#32 ∧ rotr 0x12345678#32 0xDEADBEEF = 0xACF02468#32 ∧
    rotl 0xABCD#16 0xFFF4 = 0xBCDA#16 ∧ rotl 0x8001#16 0x10 = 0x8001#16 ∧
    rotr 0x0123456789ABCDEF#64 0x44 = 0xF0123456789ABCDE#64 := by decide

theorem test_key_words :
    keyWords .w32 2 [0x01, 0x02, 0x03, 0x04, 0x05] = ([0x04030201, 0x00000005] : List (Word .w32)) ∧
    keyWords .w16 2 [0xAA, 0xBB, 0xCC] = ([0xBBAA, 0x00CC] : List (Word .w16)) ∧
    keyWords .w32 1 [] = ([0x00000000] : List (Word .w32)) ∧
    keyWords .w64 2 [0x11, 0x12, 0x13, 0x14, 0x15, 0x16, 0x17, 0x18, 0x19] =
      ([0x1817161514131211, 0x0000000000000019] : List (Word .w64)) := by decide

/-! ### CREATE (95_test_vectors.md sections 2.2 and 2.3) -/

theorem test_create_maxima :
    contextAfter (exec (.create 16 255 255) State.reset) =
      some { w := .w16, r := 255, b := 255, c := 128, t := 512, P := 0xB7E1#16, Q := 0x9E37#16, S := none } := by decide

theorem test_create_refuses_128_and_keeps_the_key :
    answer (exec (.create 128 12 16) (keyed .w16 0 0 [] 0 0)) = some (.error .invalidParameter) ∧
    contextAfter (exec (.create 128 12 16) (keyed .w16 0 0 [] 0 0)) = some (keyedContext .w16 0 0 []) := by
  decide +kernel

/-! ### EXPAND (95_test_vectors.md section 3.3 and program P5) -/

theorem test_expand_more_key_than_table :
    contextAfter (exec (.expand 8) { created .w16 0 8 with key := [1, 2, 3, 4, 5, 6, 7, 8] }) =
      some ((resolve .w16 0 8).withTable [0xF073#16, 0xAA31#16]) := by decide +kernel

theorem test_expand_w64_for_both_candidates :
    contextAfter (exec (.expand 8) (resolved64 0x9E3779B97F4A7C15)) =
      some ((context64 0x9E3779B97F4A7C15).withTable
        [0x5D7C238D87573E5D#64, 0x3939AEBED3D40DEF#64, 0x8703B2D6360063F9#64, 0x0F44A5FB6F22858C#64]) ∧
    contextAfter (exec (.expand 8) (resolved64 0x9E3779B97F4A7C17)) =
      some ((context64 0x9E3779B97F4A7C17).withTable
        [0x5EDB0D164EC98C1F#64, 0xFE955DCEC9B680F9#64, 0xAE868C1FADD172F2#64, 0xB5D1134BCDEC9BB3#64]) := by
  decide +kernel

/-! ### ENCRYPT (95_test_vectors.md sections 1.1 and 3.6) -/

/-- The source's known-answer vector 1, with bits above `w` set in the inputs (program P1, row 5). -/
theorem test_encrypt_known_answer :
    answer (exec .encrypt (keyed .w32 12 16 (List.replicate 16 0) 0xFFFFFFFF00000000 0x0000000100000000)) =
      some (.okBlock 0xEEDBA521 0x6D8F4B15) := by decide +kernel

theorem test_encrypt_short_key :
    answer (exec .encrypt (keyed .w32 12 5 [1, 2, 3, 4, 5] 0x01234567 0x89ABCDEF)) =
      some (.okBlock 0x442E7FBA 0xDDE8E79E) := by decide +kernel

/-! ### DECRYPT (95_test_vectors.md sections 1.2 and 1.1) -/

/-- The source's known-answer vector 2. -/
theorem test_decrypt_known_answer :
    answer (exec .decrypt (keyed .w32 12 16 key2 0xAC13C0F7 0x52892B5B)) =
      some (.okBlock 0xEEDBA521 0x6D8F4B15) := by decide +kernel

theorem test_decrypt_zero_block :
    answer (exec .decrypt (keyed .w32 12 16 (List.replicate 16 0) 0 0)) =
      some (.okBlock 0x48E56C13 0x9616F90F) := by decide +kernel

/-! ### The step: the first command after reset, and a word that is no command in `EMPTY` (section 4.3) -/

theorem test_first_step_runs_create :
    contextAfter (step (State.reset.withFetchWord 32 0x10200C10)) = some (resolve .w32 12 16) := by decide

theorem test_illegal_before_not_initialized :
    answer (step (State.reset.withFetchWord 32 0x31000000)) = some (.error .illegalCommand) ∧
    answer (step (State.reset.withFetchWord 32 0x30000000)) = some (.error .notInitialized) := by decide

/-! ### One command at a time (70_reset_and_hazards.md R240, R244) -/

/-- A second command presented before the first has responded is not accepted: the `CREATE` is not run, the `ENCRYPT` is. -/
theorem test_second_command_not_accepted :
    answer (step ((State.reset.present ⟨0x30000000, [], 0, 0⟩).present ⟨0x10200C10, [], 0, 0⟩)) =
      some (.error .notInitialized) := by decide

/-- Issued, it waits for the first and then runs. -/
theorem test_issue_waits :
    answer (issue ⟨0x20000000, [], 0, 0⟩ (State.reset.present ⟨0x10100000, [], 0, 0⟩)) = some .ok := by decide +kernel

/-! ### Witnesses: for each statement with hypotheses, values that meet all of them -/

/-- The small keyed state of the witnesses: RC5-16/1/3 with its table (95_test_vectors.md section 3.2). -/
def smallContext : Context := (resolve .w16 1 3).withTable [0x82C6#16, 0xEB48#16, 0xA07B#16, 0xB988#16]

def smallKeyed : State := { State.reset with ctx := some smallContext }

/-- The same context with a table too short for its round count, which no run reaches. -/
def shortContext : Context := (resolve .w16 1 3).withTable [0x82C6#16, 0xEB48#16, 0xA07B#16]

def createCommand : Command := ⟨0x10100103, [], 0, 0⟩
def badCreateCommand : Command := ⟨0x10080C10, [], 0, 0⟩
def expandCommand : Command := ⟨0x20000003, [0xAA, 0xBB, 0xCC], 0, 0⟩
def encryptCommand : Command := ⟨0x30000000, [], 0x1234, 0x5678⟩
def decryptCommand : Command := ⟨0x40000000, [], 0x75B5, 0x482E⟩

/-- For `ReservedOpcodesAreIllegal`: both clauses at their boundaries. -/
theorem witness_reserved_opcodes :
    (0x00000000 : BitVec 32).toNat / 2 ^ 28 = 0 ∧ (0x0FFFFFFF : BitVec 32).toNat / 2 ^ 28 = 0 ∧
    5 ≤ (0x50000000 : BitVec 32).toNat / 2 ^ 28 ∧ 5 ≤ (0xFFFFFFFF : BitVec 32).toNat / 2 ^ 28 := by decide

/-- For `ReservedBitsAreIllegal`: each clause at its lowest and its highest reserved bit. -/
theorem witness_reserved_bits :
    ((0x11000000 : BitVec 32).toNat / 2 ^ 28 = 1 ∧ (0x11000000 : BitVec 32).toNat / 2 ^ 24 % 2 ^ 4 ≠ 0) ∧
    ((0x18200C10 : BitVec 32).toNat / 2 ^ 28 = 1 ∧ (0x18200C10 : BitVec 32).toNat / 2 ^ 24 % 2 ^ 4 ≠ 0) ∧
    ((0x20000100 : BitVec 32).toNat / 2 ^ 28 = 2 ∧ (0x20000100 : BitVec 32).toNat / 2 ^ 8 % 2 ^ 20 ≠ 0) ∧
    ((0x28000000 : BitVec 32).toNat / 2 ^ 28 = 2 ∧ (0x28000000 : BitVec 32).toNat / 2 ^ 8 % 2 ^ 20 ≠ 0) ∧
    ((0x30000001 : BitVec 32).toNat / 2 ^ 28 = 3 ∧ (0x30000001 : BitVec 32).toNat % 2 ^ 28 ≠ 0) ∧
    ((0x48000000 : BitVec 32).toNat / 2 ^ 28 = 4 ∧ (0x48000000 : BitVec 32).toNat % 2 ^ 28 ≠ 0) := by decide

/-- For `StepRunsTheDecodedCommand`. -/
theorem witness_step_runs :
    (smallKeyed.present encryptCommand).cmd = some 0x30000000 ∧ decode 0x30000000 = .ok .encrypt := ⟨rfl, rfl⟩

/-- For `IdleStepHoldsEverything`. -/
theorem witness_idle : State.reset.cmd = none ∧ smallKeyed.cmd = none := by decide

/-- For `IllegalWordsAnswerIllegalCommand`: both reasons. -/
theorem witness_illegal_words :
    smallKeyed.cmd = none ∧
    decode (Command.word ⟨0x00000000, [0xAA], 0, 0⟩) = .error .reservedOpcode ∧
    decode (Command.word ⟨0x31000000, [], 0, 0⟩) = .error .reservedBits := ⟨rfl, rfl, rfl⟩

/-- For `CommandsSeeOnlyContextAndPayload` and `NothingOfACommandOutlivesIt`: two states that differ in everything but the
context. -/
theorem witness_same_context :
    ∃ s' t, smallKeyed.cmd = none ∧ s'.cmd = none ∧ smallKeyed.ctx = s'.ctx ∧ s' ≠ smallKeyed ∧
      issue encryptCommand smallKeyed = .next t :=
  ⟨{ smallKeyed with key := [1], x0 := 5, response := some .ok }, _, rfl, rfl, rfl, by decide, rfl⟩

/-- For `NothingOfACommandOutlivesIt`, its clause about `exec`. -/
theorem witness_exec_clears : ∃ t, exec .encrypt (smallKeyed.present encryptCommand) = .next t := ⟨_, rfl⟩

/-- For `EveryCommandIsAnswered` and `StepKeepsInvariant`: a keyed state with a command pending. -/
theorem witness_invariant_step :
    (smallKeyed.present encryptCommand).Inv ∧ (smallKeyed.present encryptCommand).cmd ≠ none ∧
    ∃ t, step (smallKeyed.present encryptCommand) = .next t := ⟨by decide, by decide, _, rfl⟩

/-- For `InvariantBoundsTheDerivedFields`: a keyed context, and the contexts at both ends of the parameters. -/
theorem witness_bounds :
    smallKeyed.Inv ∧ smallKeyed.ctx = some smallContext ∧ (created .w16 255 255).Inv ∧ (created .w32 0 0).Inv ∧
    (∃ S, smallContext.S = some S) := ⟨by decide, rfl, by decide, by decide, _, rfl⟩

/-- For `LifecycleFollowsTheTable`: each command once with success and once with an error, in states between commands. -/
theorem witness_lifecycle :
    (State.reset.cmd = none ∧ (created .w16 1 3).cmd = none ∧ smallKeyed.cmd = none) ∧
    (decode createCommand.word = .ok (.create 16 1 3) ∧ decode badCreateCommand.word = .ok (.create 8 12 16) ∧
      decode expandCommand.word = .ok (.expand 3) ∧ decode encryptCommand.word = .ok .encrypt ∧
      decode decryptCommand.word = .ok .decrypt) ∧
    (∃ t, issue createCommand State.reset = .next t ∧ t.response = some .ok) ∧
    (∃ t, issue badCreateCommand State.reset = .next t ∧ t.response = some (.error .invalidParameter)) ∧
    (∃ t, issue expandCommand (created .w16 1 3) = .next t ∧ t.response = some .ok) ∧
    (∃ t, issue expandCommand State.reset = .next t ∧ t.response = some (.error .invalidParameter)) ∧
    (∃ t, issue encryptCommand smallKeyed = .next t ∧ t.response = some (.okBlock 0x75B5 0x482E)) ∧
    (∃ t, issue decryptCommand smallKeyed = .next t ∧ t.response = some (.okBlock 0x1234 0x5678)) ∧
    (∃ t, issue encryptCommand State.reset = .next t ∧ t.response = some (.error .notInitialized)) ∧
    (∃ t, issue decryptCommand (created .w16 1 3) = .next t ∧ t.response = some (.error .notInitialized)) :=
  ⟨⟨rfl, rfl, rfl⟩, ⟨rfl, rfl, rfl, rfl, rfl⟩, ⟨_, rfl, rfl⟩, ⟨_, rfl, rfl⟩, ⟨_, rfl, rfl⟩, ⟨_, rfl, rfl⟩, ⟨_, rfl, by decide⟩,
    ⟨_, rfl, by decide⟩, ⟨_, rfl, rfl⟩, ⟨_, rfl, rfl⟩⟩

/-- For `KeyedImpliesResolved`: a keyed state. -/
theorem witness_keyed : smallKeyed.keyed = true := by decide

/-- For `ErrorsChangeNoState`, `ErrorsBelongToTheirCommands` and `FailedCommandsLeaveNoTrace`: each error, on a keyed state
where it can arise, and a command after it. -/
theorem witness_errors :
    (smallKeyed.cmd = none ∧ State.reset.cmd = none) ∧
    (∃ t, issue badCreateCommand smallKeyed = .next t ∧ t.response = some (.error .invalidParameter)) ∧
    (∃ t, issue ⟨0x20000000, [], 0, 0⟩ smallKeyed = .next t ∧ t.response = some (.error .invalidParameter)) ∧
    (∃ t, issue ⟨0x50000000, [], 0, 0⟩ smallKeyed = .next t ∧ t.response = some (.error .illegalCommand)) ∧
    (∃ t, issue encryptCommand State.reset = .next t ∧ t.response = some (.error .notInitialized)) ∧
    (∃ u, issue encryptCommand smallKeyed = .next u) :=
  ⟨⟨rfl, rfl⟩, ⟨_, rfl, rfl⟩, ⟨_, rfl, rfl⟩, ⟨_, rfl, rfl⟩, ⟨_, rfl, rfl⟩, _, rfl⟩

/-- For `CreateWritesTheWholeContext`: the three word sizes. -/
theorem witness_create :
    (16 : BitVec 8).toNat = WordSize.w16.bits ∧ (32 : BitVec 8).toNat = WordSize.w32.bits ∧
    (64 : BitVec 8).toNat = WordSize.w64.bits := by decide

/-- For `CreateRefusesOtherWordSizes`: both ends of the field, neighbours of the supported sizes and other powers of two. -/
theorem witness_create_refused :
    ∀ W ∈ ([0, 8, 15, 17, 24, 31, 33, 63, 65, 128, 255] : List (BitVec 8)),
      W.toNat ≠ 16 ∧ W.toNat ≠ 32 ∧ W.toNat ≠ 64 := by decide

/-- For `KeyWordCountIsLeastThatFits`: a word count that fits, at an exact multiple and one byte over it. -/
theorem witness_key_word_count :
    (1 ≤ 1 ∧ 8 * 4 ≤ WordSize.w32.bits * 1) ∧ (1 ≤ 2 ∧ 8 * 5 ≤ WordSize.w32.bits * 2) := by decide

/-- For the last corner case of `AdditionWraps`. -/
theorem witness_addition_wraps : (0xFFFF : Word .w16).toNat = 2 ^ WordSize.w16.bits - 1 := by decide

/-- For `RotateLeftMovesEveryBit` and `RotateRightMovesEveryBit`: the ends of the bit range, and amounts for each clause. -/
theorem witness_rotate :
    0 < WordSize.w16.bits ∧ 15 < WordSize.w16.bits ∧ 63 < WordSize.w64.bits ∧ 32 % WordSize.w16.bits = 0 ∧
    1 ≤ 33 % WordSize.w16.bits ∧ 1 ≤ 63 % WordSize.w64.bits := by decide

/-- For `ExpandRebuildsTheTable`: a resolved context and a keyed one, and the empty key. -/
theorem witness_expand :
    ((created .w16 1 3).ctx = some (resolve .w16 1 3) ∧ (resolve .w16 1 3).Wf ∧ (3 : BitVec 8) = (resolve .w16 1 3).b ∧
      (State.key { created .w16 1 3 with key := [0xAA, 0xBB, 0xCC] }).length = (3 : BitVec 8).toNat) ∧
    (smallKeyed.ctx = some smallContext ∧ smallContext.Wf ∧ (3 : BitVec 8) = smallContext.b) ∧
    ((created .w16 0 0).ctx = some (resolve .w16 0 0) ∧ (resolve .w16 0 0).Wf ∧ (0 : BitVec 8) = (resolve .w16 0 0).b ∧
      (created .w16 0 0).key.length = (0 : BitVec 8).toNat) := by
  refine ⟨⟨rfl, by decide, by decide, by decide⟩, ⟨rfl, by decide, by decide⟩, rfl, by decide, by decide, by decide⟩

/-- For `ExpandWritesOnlyTheTable`: a run that writes and a run that does not. -/
theorem witness_expand_frame :
    (∃ t, exec (.expand 3) { smallKeyed with key := [0xAA, 0xBB, 0xCC] } = .next t) ∧
    (∃ t, exec (.expand 4) smallKeyed = .next t) ∧ smallKeyed.ctx = some smallContext := ⟨⟨_, rfl⟩, ⟨_, rfl⟩, rfl⟩

/-- For `ExpandRefusesWrongLengths`: no context, one byte too few, one too many. -/
theorem witness_expand_refused :
    State.reset.ctx = none ∧ smallKeyed.ctx = some smallContext ∧ (2 : BitVec 8) ≠ smallContext.b ∧
    (4 : BitVec 8) ≠ smallContext.b := by refine ⟨rfl, rfl, by decide, by decide⟩

/-- For `ExpandRefusesIllFormedKeyBuffers`: one byte too few and one too many. -/
theorem witness_expand_ill_formed :
    (Instr.expand 3).payloadFits (State.key { smallKeyed with key := [0xAA, 0xBB] }) = false ∧
    (Instr.expand 3).payloadFits (State.key { smallKeyed with key := [0xAA, 0xBB, 0xCC, 0xDD] }) = false := by decide

/-- For `KeyBytesLandInTheirLanes`: the last lane of a padded last word, and the empty key. -/
theorem witness_key_lanes :
    ([0xAA, 0xBB, 0xCC] : List Byte).length ≤ WordSize.w16.bytes * 2 ∧ 1 < 2 ∧ 1 < WordSize.w16.bytes ∧
    ([] : List Byte).length ≤ WordSize.w64.bytes * 1 ∧ 7 < WordSize.w64.bytes := by decide

/-- For `TableStartsAsArithmeticSequence`: the first and the last entry of the smallest table. -/
theorem witness_table_start : 0 < 2 ∧ 1 < 2 := by decide

/-- For `ExpandForgetsTheOldTable`: a keyed and an unkeyed state with the same parameters and the same key, their data inputs
and responses different. -/
theorem witness_expand_forgets :
    ∃ s s' t : State, s.ctx = some smallContext ∧ s'.ctx = some (resolve .w16 1 3) ∧ smallContext.Wf ∧
      (resolve .w16 1 3).Wf ∧ smallContext.w = (resolve .w16 1 3).w ∧ smallContext.r = (resolve .w16 1 3).r ∧
      smallContext.b = (resolve .w16 1 3).b ∧ s.key = s'.key ∧ s.x0 ≠ s'.x0 ∧ exec (.expand 3) s = .next t ∧
      t.response = some .ok :=
  ⟨{ smallKeyed with key := [0xAA, 0xBB, 0xCC], x0 := 7 }, { created .w16 1 3 with key := [0xAA, 0xBB, 0xCC] }, _,
    rfl, rfl, by decide, by decide, rfl, rfl, rfl, rfl, by decide, rfl, rfl⟩

/-- For `EncryptIsTheForwardTransform`, `DecryptIsTheInverseTransform` and `EncryptAndDecryptUndoEachOther`, with `r = 1`, and
with `r = 0` and the smallest table. -/
theorem witness_transforms :
    (smallKeyed.cmd = none ∧ smallKeyed.ctx = some smallContext ∧ smallContext.S = some [0x82C6#16, 0xEB48#16, 0xA07B#16, 0xB988#16] ∧
      2 * smallContext.r.toNat + 2 ≤ 4) ∧
    (((resolve .w16 0 0).withTable [0x7865#16, 0x33F4#16]).S = some [0x7865#16, 0x33F4#16] ∧
      2 * (resolve .w16 0 0).r.toNat + 2 ≤ 2) ∧
    decode encryptCommand.word = .ok .encrypt ∧ decode decryptCommand.word = .ok .decrypt :=
  ⟨⟨rfl, rfl, rfl, by decide⟩, ⟨rfl, by decide⟩, rfl, rfl⟩

/-- For `TransformsNeedATable`: `EMPTY` and `RESOLVED`. -/
theorem witness_no_table : State.reset.keyed = false ∧ (created .w32 12 16).keyed = false := by decide

/-- For `TransformsCheckTheTableBounds`: a table one entry short, on which both commands fault. -/
theorem witness_short_table :
    (∃ f, exec .encrypt { State.reset with ctx := some shortContext } = .fault f) ∧
    (∃ f, exec .decrypt { State.reset with ctx := some shortContext } = .fault f) ∧
    (State.ctx { State.reset with ctx := some shortContext }) = some shortContext ∧
    shortContext.S = some [0x82C6#16, 0xEB48#16, 0xA07B#16] ∧ 3 < 2 * shortContext.r.toNat + 2 :=
  ⟨⟨_, rfl⟩, ⟨_, rfl⟩, rfl, rfl, by decide⟩

/-- For `TransformsLeaveTheContext`. -/
theorem witness_transform_frame :
    (∃ t, exec .encrypt smallKeyed = .next t) ∧ (∃ t, exec .decrypt smallKeyed = .next t) := ⟨⟨_, rfl⟩, _, rfl⟩

/-- For `HighInputBitsAreIgnored`: inputs that differ only above `w`. -/
theorem witness_high_bits :
    smallKeyed.ctx = some smallContext ∧
    (0xFFFFFFFFFFFF0000 : DataWord).toNat % 2 ^ smallContext.w.bits = smallKeyed.x0.toNat % 2 ^ smallContext.w.bits ∧
    (0x0000000000010000 : DataWord).toNat % 2 ^ smallContext.w.bits = smallKeyed.x1.toNat % 2 ^ smallContext.w.bits :=
  ⟨rfl, by decide, by decide⟩

/-- For `OutputsAreZeroExtended`: a run of each transform that answers a block. -/
theorem witness_outputs :
    smallKeyed.ctx = some smallContext ∧
    (∃ t y0 y1, exec .encrypt smallKeyed = .next t ∧ t.response = some (.okBlock y0 y1)) ∧
    (∃ t y0 y1, exec .decrypt smallKeyed = .next t ∧ t.response = some (.okBlock y0 y1)) :=
  ⟨rfl, ⟨_, _, _, rfl, rfl⟩, ⟨_, _, _, rfl, rfl⟩⟩

/-- For `TransformsReadOnlyTheRoundKeys`: a table with a further entry. -/
theorem witness_round_keys :
    smallContext.S = some [0x82C6#16, 0xEB48#16, 0xA07B#16, 0xB988#16] ∧ 2 * smallContext.r.toNat + 2 ≤ 4 ∧
    2 * smallContext.r.toNat + 2 ≤ 5 ∧ ∀ i, i < 2 * smallContext.r.toNat + 2 →
      wordAt [0x82C6#16, 0xEB48#16, 0xA07B#16, 0xB988#16] i =
        wordAt [0x82C6#16, 0xEB48#16, 0xA07B#16, 0xB988#16, 0xFFFF#16] i := ⟨rfl, by decide, by decide, by decide⟩

/-- For `BringUpSucceedsInOrder` and `CreateDiscardsTheKey`: the commands of program P4, from a state between commands and from
one with a command pending. -/
theorem witness_bring_up :
    (smallKeyed.cmd = none ∧ (smallKeyed.present encryptCommand).Inv ∧
      (smallKeyed.present encryptCommand).cmd = some 0x30000000) ∧
    (16 : BitVec 8).toNat = WordSize.w16.bits ∧ decode createCommand.word = .ok (.create 16 1 3) ∧
    decode expandCommand.word = .ok (.expand 3) ∧ expandCommand.wellFormed = true ∧
    decode encryptCommand.word = .ok .encrypt ∧ decode decryptCommand.word = .ok .decrypt ∧
    ∃ t, issue createCommand smallKeyed = .next t ∧ t.response = some .ok :=
  ⟨⟨rfl, by decide, rfl⟩, by decide, rfl, rfl, by decide, rfl, rfl, _, rfl, rfl⟩

/-- For `PendingCommandIsNeverReplaced`: a state of each kind. -/
theorem witness_pending : (smallKeyed.present encryptCommand).cmd ≠ none ∧ smallKeyed.cmd = none := by decide

/-- For `CommandsRunOneAtATime`: a step of a pending command and an idle one. -/
theorem witness_one_at_a_time :
    (∃ t, step (smallKeyed.present encryptCommand) = .next t ∧ (smallKeyed.present encryptCommand).cmd ≠ none) ∧
    ∃ t, step smallKeyed = .next t := ⟨⟨_, rfl, by decide⟩, _, rfl⟩

end Sys2Proof.Tests
end

/-! ### Non-interference: what a command's outcome depends on (00_scope.md R9, 10_state.md R38, R39) -/

namespace Sys2Proof.Machine

section SameOperands

variable {s s' : State} (hctx : s.ctx = s'.ctx)
include hctx

/-- A response overwrites every field but the context. -/
theorem respond_eq_of_ctx (r : Response) : s.respond r = s'.respond r := by
  simp only [State.respond, hctx]

theorem raise_eq_of_ctx (e : Error) : s.raise e = s'.raise e := respond_eq_of_ctx hctx (.error e)

theorem execCreate_eq_of_ctx (W R B : BitVec 8) : execCreate W R B s = execCreate W R B s' := by
  have hw (w : WordSize) : (s.withContext (resolve w R B)).respond .ok = (s'.withContext (resolve w R B)).respond .ok :=
    respond_eq_of_ctx rfl .ok
  simp only [execCreate, raise_eq_of_ctx hctx, hw]

theorem execExpand_eq_of_key (hkey : s.key = s'.key) (LEN : BitVec 8) : execExpand LEN s = execExpand LEN s' := by
  have hx (x : Context) : (s.withContext x).respond .ok = (s'.withContext x).respond .ok := respond_eq_of_ctx rfl .ok
  simp only [execExpand, hctx, hkey, raise_eq_of_ctx hctx, hx]

theorem roundTransform_eq_of_block (hx0 : s.x0 = s'.x0) (hx1 : s.x1 = s'.x1)
    (f : (w : WordSize) → List (Word w) → Nat → Word w × Word w → Word w × Word w) :
    roundTransform f s = roundTransform f s' := by
  simp only [roundTransform, hctx, hx0, hx1, raise_eq_of_ctx hctx, respond_eq_of_ctx hctx]

/-- A command's meaning reads the context, the key buffer and the data values: neither the pending word nor the response
before. -/
theorem exec_eq_of_operands (hkey : s.key = s'.key) (hx0 : s.x0 = s'.x0) (hx1 : s.x1 = s'.x1) (i : Instr) :
    exec i s = exec i s' := by
  cases i with
  | create W R B => exact execCreate_eq_of_ctx hctx W R B
  | expand LEN => exact execExpand_eq_of_key hctx hkey LEN
  | encrypt => exact roundTransform_eq_of_block hctx hx0 hx1 _
  | decrypt => exact roundTransform_eq_of_block hctx hx0 hx1 _

/-- Presenting a command fills every operand register, so of a state between commands only the context is left to see. -/
theorem issue_eq_of_ctx (hs : s.cmd = none) (hs' : s'.cmd = none) (c : Command) : issue c s = issue c s' := by
  have hdrive : (s.drive c).ctx = (s'.drive c).ctx := hctx
  cases hd : decode c.word with
  | error why => rw [issue_of_decode_error hd hs, issue_of_decode_error hd hs', raise_eq_of_ctx hdrive]
  | ok i => rw [issue_of_decode_ok hd hs, issue_of_decode_ok hd hs', exec_eq_of_operands hdrive rfl rfl rfl]

end SameOperands

/-- Settles O9: the two states answer every outcome alike. -/
theorem commandsSeeOnlyContextAndPayload : Obligations.CommandsSeeOnlyContextAndPayload := by
  intro s s' t c hs hs' hctx hissue
  rw [← issue_eq_of_ctx hctx hs hs' c, hissue]

end Sys2Proof.Machine

/-! ### The bounds of the derived fields (00_scope.md R7, 10_state.md R26, R27, R30) -/

namespace Sys2Proof.Machine

theorem one_le_keyWordCount (w : WordSize) (b : Nat) : 1 ≤ keyWordCount w b := Nat.le_max_left _ _

theorem two_le_tableLength (r : Nat) : 2 ≤ tableLength r := by
  unfold tableLength; omega

theorem tableLength_even (r : Nat) : tableLength r % 2 = 0 := Nat.mul_mod_right 2 (r + 1)

section WellFormed

variable {x : Context} (h : x.Wf)
include h

/-- `c` is at least 1, and at most `C_MAX` because `b` is an 8-bit field. -/
theorem keyWords_bounds_of_wf : 1 ≤ x.c.toNat ∧ x.c.toNat ≤ Config.cMax := by
  obtain ⟨hc, -, -, -, -⟩ := h
  have hb : x.b.toNat ≤ Config.bMax := Nat.le_of_lt_succ x.b.isLt
  rw [hc]
  exact ⟨one_le_keyWordCount x.w x.b.toNat, keyWordCount_le x.w hb⟩

/-- `t` is even and at least 2, and at most `T_MAX` because `r` is an 8-bit field. -/
theorem table_bounds_of_wf : 2 ≤ x.t.toNat ∧ x.t.toNat ≤ Config.tMax ∧ x.t.toNat % 2 = 0 := by
  obtain ⟨-, ht, -, -, -⟩ := h
  have hr : x.r.toNat ≤ Config.rMax := Nat.le_of_lt_succ x.r.isLt
  rw [ht]
  exact ⟨two_le_tableLength x.r.toNat, tableLength_le hr, tableLength_even x.r.toNat⟩

theorem table_length_of_wf {S : List (Word x.w)} (hS : x.S = some S) : S.length = 2 * (x.r.toNat + 1) := by
  obtain ⟨-, ht, -, -, hlen⟩ := h
  exact (hlen S hS).trans ht

end WellFormed

/-- Settles O16: the bounds of a well-formed context, which the invariant says the engine's is. -/
theorem invariantBoundsTheDerivedFields : Obligations.InvariantBoundsTheDerivedFields := by
  intro s x hinv hx
  have hwf : x.Wf := hinv x hx
  obtain ⟨hc1, hc2⟩ := keyWords_bounds_of_wf hwf
  obtain ⟨ht1, ht2, heven⟩ := table_bounds_of_wf hwf
  exact ⟨hc1, hc2, ht1, ht2, heven, fun S hS => table_length_of_wf hwf hS⟩

end Sys2Proof.Machine

/-! ### What each command answers: the inversion of `exec` by command (41_create_resolver.md, 42_expand_key_schedule.md,
44_encrypt.md, 45_decrypt.md) -/

namespace Sys2Proof.Machine

variable {s t : State}

theorem exec_create_next_cases {W R B : BitVec 8} (h : exec (.create W R B) s = .next t) :
    t = s.raise .invalidParameter ∨ ∃ w, t = (s.withContext (resolve w R B)).respond .ok := by
  rcases execCreate_cases W R B s with ⟨-, h1⟩ | ⟨w, -, h1⟩ <;> cases h1.symm.trans h
  · exact .inl rfl
  · exact .inr ⟨w, rfl⟩

theorem exec_expand_next_cases {LEN : BitVec 8} (h : exec (.expand LEN) s = .next t) :
    t = s.raise .invalidParameter ∨
    ∃ x, s.ctx = some x ∧ t = (s.withContext (x.withTable (keySchedule x s.key))).respond .ok := by
  rcases execExpand_cases LEN s with ⟨-, h1⟩ | ⟨x, hx, ⟨-, h1⟩ | ⟨-, f, -, h1⟩ | ⟨-, -, h1⟩⟩ <;> cases h1.symm.trans h
  · exact .inl rfl
  · exact .inl rfl
  · exact .inr ⟨x, hx, rfl⟩

/-- `ENCRYPT` and `DECRYPT` are one operation up to the block they answer. -/
theorem roundTransform_next_cases {f : (w : WordSize) → List (Word w) → Nat → Word w × Word w → Word w × Word w}
    (h : roundTransform f s = .next t) :
    t = s.raise .notInitialized ∨ ∃ y0 y1, s.keyed = true ∧ t = s.respond (.okBlock y0 y1) := by
  rcases roundTransform_cases f s with ⟨-, h1⟩ | ⟨x, S, hx, hS, ⟨-, h1⟩ | ⟨-, y0, y1, h1, -⟩⟩ <;> cases h1.symm.trans h
  · exact .inl rfl
  · exact .inr ⟨y0, y1, by simp [State.keyed, hx, hS], rfl⟩

end Sys2Proof.Machine

/-! ### The invariant (10_state.md R26 to R28, R30, R45, R50) -/

namespace Sys2Proof.Machine

variable {s t : State} {x : Context}

theorem inv_of_ctx_eq (hctx : t.ctx = s.ctx) (hs : s.Inv) : t.Inv := by
  intro x hx
  rw [hctx] at hx
  exact hs x hx

theorem inv_of_ctx_eq_some (hx : t.ctx = some x) (hwf : x.Wf) : t.Inv := by
  intro y hy
  cases hx.symm.trans hy
  exact hwf

/-- A table of `t` entries keeps a context well-formed, for no derived field depends on the table. -/
theorem withTable_wf (hwf : x.Wf) {S : List (Word x.w)} (hS : S.length = x.t.toNat) : (x.withTable S).Wf := by
  obtain ⟨hc, ht, hP, hQ, -⟩ := hwf
  refine ⟨hc, ht, hP, hQ, fun S' hS' => ?_⟩
  cases hS'
  exact hS

/-- Only a successful `CREATE` or `EXPAND` writes the context: the first with all its fields, the second with a table of `t`
entries. -/
theorem exec_keeps_inv {i : Instr} (hs : s.Inv) (h : exec i s = .next t) : t.Inv := by
  rcases exec_next_cases h with ⟨e, rfl, -⟩ | ⟨W, R, B, w, -, -, rfl⟩ | ⟨LEN, x, -, hx, rfl⟩ | ⟨y0, y1, -, -, rfl⟩
  · exact inv_of_ctx_eq (raise_ctx s e) hs
  · exact inv_of_ctx_eq_some (x := resolve w R B) rfl (resolve_wf w R B)
  · have hwf : x.Wf := hs x hx
    exact inv_of_ctx_eq_some (x := x.withTable (keySchedule x s.key)) rfl (withTable_wf hwf (keySchedule_length x s.key))
  · exact inv_of_ctx_eq (respond_ctx s _) hs

/-- Settles O15, by the three things a step can be. -/
theorem stepKeepsInvariant : Obligations.StepKeepsInvariant := by
  intro s t hs h
  rcases step_cases s with ⟨-, h1⟩ | ⟨word, why, -, -, h1⟩ | ⟨word, i, -, -, h1⟩
  · cases h1.symm.trans h
    exact hs
  · cases h1.symm.trans h
    exact inv_of_ctx_eq (raise_ctx s _) hs
  · exact exec_keeps_inv hs (h1.symm.trans h)

/-- Settles O14: after reset there is no context. -/
theorem resetMeetsInvariant : Obligations.ResetMeetsInvariant :=
  fun x hx => absurd hx (Option.not_mem_none x)

end Sys2Proof.Machine

/-! ### The lifecycle (10_state.md R21, R22, R50) -/

namespace Sys2Proof.Machine

variable {s t : State}

/-- The table is a field of the context, so there is none without a context. -/
theorem resolved_of_keyed (h : s.keyed = true) : s.resolved = true := by
  unfold State.keyed at h
  cases hx : s.ctx with
  | none => simp [hx] at h
  | some x => simp [State.resolved, hx]

theorem lifecycle_eq_keyed_iff : s.lifecycle = .keyed ↔ s.keyed = true := by
  unfold State.lifecycle
  split_ifs with hk hr <;> simp [hk]

theorem lifecycle_eq_resolved_iff : s.lifecycle = .resolved ↔ s.resolved = true ∧ s.keyed = false := by
  unfold State.lifecycle
  split_ifs with hk hr
  · simp [hk]
  · simp [hk, hr]
  · simp [hr]

theorem lifecycle_eq_empty_iff : s.lifecycle = .empty ↔ s.resolved = false := by
  unfold State.lifecycle
  split_ifs with hk hr
  · simp [resolved_of_keyed hk]
  · simp [hr]
  · simp [hr]

theorem resolved_eq_of_ctx (h : t.ctx = s.ctx) : t.resolved = s.resolved := by
  simp only [State.resolved, h]

theorem keyed_eq_of_ctx (h : t.ctx = s.ctx) : t.keyed = s.keyed := by
  simp only [State.keyed, h]

theorem lifecycle_eq_of_ctx (h : t.ctx = s.ctx) : t.lifecycle = s.lifecycle := by
  have hk : t.keyed = s.keyed := keyed_eq_of_ctx h
  have hr : t.resolved = s.resolved := resolved_eq_of_ctx h
  simp only [State.lifecycle, hk, hr]

/-- Settles O18: the flags are nested, and the lifecycle state is read from them. -/
theorem keyedImpliesResolved : Obligations.KeyedImpliesResolved :=
  fun _ => ⟨resolved_of_keyed, lifecycle_eq_keyed_iff, lifecycle_eq_empty_iff⟩

/-- Settles O12: with no context neither flag is set. -/
theorem resetIsEmpty : Obligations.ResetIsEmpty :=
  ⟨rfl, rfl, lifecycle_eq_empty_iff.mpr rfl, rfl, rfl, rfl⟩

/-- Settles O17, by the command and what it can answer. -/
theorem lifecycleFollowsTheTable : Obligations.LifecycleFollowsTheTable := by
  intro s t c i hs hd h
  rw [issue_of_decode_ok hd hs] at h
  cases i with
  | create W R B =>
    rcases exec_create_next_cases h with rfl | ⟨w, rfl⟩
    · exact lifecycle_eq_of_ctx rfl
    · exact lifecycle_eq_resolved_iff.mpr ⟨rfl, rfl⟩
  | expand LEN =>
    rcases exec_expand_next_cases h with rfl | ⟨x, hx, rfl⟩
    · exact lifecycle_eq_of_ctx rfl
    · have hr : s.resolved = true := Option.isSome_of_eq_some hx
      exact ⟨by simp [lifecycle_eq_empty_iff, hr], lifecycle_eq_keyed_iff.mpr rfl⟩
  | encrypt | decrypt =>
    rcases roundTransform_next_cases h with rfl | ⟨y0, y1, hk, rfl⟩
    · exact lifecycle_eq_of_ctx rfl
    · exact ⟨lifecycle_eq_keyed_iff.mpr hk, lifecycle_eq_keyed_iff.mpr hk⟩

end Sys2Proof.Machine

/-! ### Frames: what `EXPAND`, `ENCRYPT` and `DECRYPT` leave of the context (10_state.md R43, R168, R185, R194) -/

namespace Sys2Proof.Machine

/-- Settles O34: an error leaves the context, a success gives it the new table. -/
theorem expandWritesOnlyTheTable : Obligations.ExpandWritesOnlyTheTable := by
  intro s t x LEN hx h
  rcases exec_expand_next_cases h with rfl | ⟨y, hy, rfl⟩
  · exact .inl hx
  · cases hx.symm.trans hy
    exact .inr ⟨keySchedule x s.key, rfl⟩

theorem roundTransform_ctx {f : (w : WordSize) → List (Word w) → Nat → Word w × Word w → Word w × Word w} {s t : State}
    (h : roundTransform f s = .next t) : t.ctx = s.ctx := by
  rcases roundTransform_next_cases h with rfl | ⟨y0, y1, -, rfl⟩
  · exact raise_ctx s _
  · exact respond_ctx s _

/-- Settles O47: the flags are read from the context, which the shared transform leaves as it was. -/
theorem transformsLeaveTheContext : Obligations.TransformsLeaveTheContext := by
  intro s t h
  have hctx : t.ctx = s.ctx := h.elim roundTransform_ctx roundTransform_ctx
  exact ⟨hctx, resolved_eq_of_ctx hctx, keyed_eq_of_ctx hctx⟩

end Sys2Proof.Machine

/-! ### The round keys a transform reads (10_state.md R43, R185, R194) -/

namespace Sys2Proof.Machine

section RoundKeys

variable {w : WordSize} {S S' : List (Word w)}

theorem encryptRounds_congr {r : Nat} (h : ∀ i, i < 2 * r + 2 → wordAt S i = wordAt S' i) (x : Word w × Word w) :
    encryptRounds S r x = encryptRounds S' r x := by
  induction r with
  | zero => rfl
  | succ r ih =>
    have hprev := ih fun i hi => h i (by omega)
    simp only [encryptRounds, encryptRound, hprev, h (2 * (r + 1)) (by omega), h (2 * (r + 1) + 1) (by omega)]

theorem decryptRounds_congr {r : Nat} (h : ∀ i, i < 2 * r + 2 → wordAt S i = wordAt S' i) (x : Word w × Word w) :
    decryptRounds S r x = decryptRounds S' r x := by
  induction r generalizing x with
  | zero => rfl
  | succ r ih =>
    have hnext := ih fun i hi => h i (by omega)
    simp only [decryptRounds, decryptRound, hnext, h (2 * (r + 1)) (by omega), h (2 * (r + 1) + 1) (by omega)]

theorem encryptBlock_congr {r : Nat} (h : ∀ i, i < 2 * r + 2 → wordAt S i = wordAt S' i) (x : Word w × Word w) :
    encryptBlock S r x = encryptBlock S' r x := by
  simp only [encryptBlock, h 0 (by omega), h 1 (by omega), encryptRounds_congr h]

theorem decryptBlock_congr {r : Nat} (h : ∀ i, i < 2 * r + 2 → wordAt S i = wordAt S' i) (x : Word w × Word w) :
    decryptBlock S r x = decryptBlock S' r x := by
  simp only [decryptBlock, h 0 (by omega), h 1 (by omega), decryptRounds_congr h]

end RoundKeys

/-- With both tables long enough, the transforms of two contexts of one word size and one round count answer alike when the
function they apply does not tell the tables apart. -/
theorem roundTransform_response_congr
    (f : (w : WordSize) → List (Word w) → Nat → Word w × Word w → Word w × Word w) {s : State} {x : Context}
    {b c : BitVec 8} {t : BitVec 10} {P Q : Word x.w} {S S' : List (Word x.w)} (hx : s.ctx = some x) (hS : x.S = some S)
    (hl : 2 * x.r.toNat + 2 ≤ S.length) (hl' : 2 * x.r.toNat + 2 ≤ S'.length)
    (hf : ∀ y, f x.w S x.r.toNat y = f x.w S' x.r.toNat y) :
    ∃ u u', roundTransform f s = .next u ∧
      roundTransform f { s with ctx := some { x with b := b, c := c, t := t, P := P, Q := Q, S := some S' } } = .next u' ∧
      u.response = u'.response := by
  refine ⟨_, _, roundTransform_next f hx hS hl, roundTransform_next f rfl rfl hl', ?_⟩
  simp only [respond_response, hf]

/-- Settles O52: both blocks are functions of the entries `S[0..2r+1]`. -/
theorem transformsReadOnlyTheRoundKeys : Obligations.TransformsReadOnlyTheRoundKeys := by
  intro s x b c t P Q S S' hx hS hl hl' hkeys
  exact ⟨roundTransform_response_congr _ hx hS hl hl' (encryptBlock_congr hkeys),
    roundTransform_response_congr _ hx hS hl hl' (decryptBlock_congr hkeys)⟩

end Sys2Proof.Machine

/-! ### The end of a command (10_state.md R37, R38) -/

namespace Sys2Proof.Machine

variable {s t : State}

/-- Whatever a command answers, its last act is a response. -/
theorem exec_next_responds {i : Instr} (h : exec i s = .next t) : ∃ (u : State) (r : Response), t = u.respond r := by
  rcases exec_next_cases h with ⟨e, rfl, -⟩ | ⟨W, R, B, w, -, -, rfl⟩ | ⟨LEN, x, -, -, rfl⟩ | ⟨y0, y1, -, -, rfl⟩ <;>
    exact ⟨_, _, rfl⟩

theorem step_next_cases (h : step s = .next t) :
    (s.cmd = none ∧ t = s) ∨ ∃ (u : State) (r : Response), t = u.respond r := by
  rcases step_cases s with ⟨hidle, h1⟩ | ⟨word, why, -, -, h1⟩ | ⟨word, i, -, -, h1⟩
  · cases h1.symm.trans h
    exact .inl ⟨hidle, rfl⟩
  · cases h1.symm.trans h
    exact .inr ⟨s, .error .illegalCommand, rfl⟩
  · exact .inr (exec_next_responds (h1.symm.trans h))

/-- A step leaves no command pending: it was idle, or it ran the command to its response. -/
theorem step_next_cmd (h : step s = .next t) : t.cmd = none := by
  rcases step_next_cases h with ⟨hidle, rfl⟩ | ⟨u, r, rfl⟩
  · exact hidle
  · exact respond_cmd u r

/-- After the wait `issue` begins with, the port is free and the command is accepted. -/
theorem issue_of_step {u : State} (h : step s = .next u) (c : Command) : issue c s = step (u.drive c) := by
  simp only [issue, h, present_of_ready (step_next_cmd h)]

theorem issue_next_responds {c : Command} (h : issue c s = .next t) : ∃ (u : State) (r : Response), t = u.respond r := by
  cases hw : step s with
  | next v =>
    rw [issue_of_step hw] at h
    rcases step_next_cases h with ⟨hidle, -⟩ | hresp
    · simp at hidle
    · exact hresp
  | fault f => simp [issue, hw] at h
  | refused why => simp [issue, hw] at h

/-- Settles O11: a response clears every command register. -/
theorem nothingOfACommandOutlivesIt : Obligations.NothingOfACommandOutlivesIt := by
  intro s t c i h
  obtain ⟨u, r, rfl⟩ := h.elim exec_next_responds issue_next_responds
  exact ⟨respond_cmd u r, respond_key u r, respond_x0 u r, respond_x1 u r⟩

end Sys2Proof.Machine

/-! ### A step's answer (20_memory.md R65, R66, R69, R72, 30_encoding.md R99) -/

namespace Sys2Proof.Machine

variable {s : State}

theorem accept_of_decode_ok {word : BitVec 32} {i : Instr} (hcmd : s.cmd = some word) (hd : decode word = .ok i) :
    s.accept = .instr i := by
  simp only [State.accept, hcmd, hd]

/-- Settles O6: a step branches on what the engine accepts, and it accepts the decoded command. -/
theorem stepRunsTheDecodedCommand : Obligations.StepRunsTheDecodedCommand := by
  intro s word i hcmd hd
  simp only [step, accept_of_decode_ok hcmd hd]

/-- Under the invariant the table holds every round key, so every index of a transform is in range (R65). -/
theorem roundKeys_le_length_of_inv (hs : s.Inv) {x : Context} {S : List (Word x.w)} (hx : s.ctx = some x)
    (hS : x.S = some S) : 2 * x.r.toNat + 2 ≤ S.length := by
  have hlen : S.length = 2 * (x.r.toNat + 1) := table_length_of_wf (hs x hx) hS
  omega

theorem execExpand_answers_of_inv (hs : s.Inv) (LEN : BitVec 8) : ∃ t, execExpand LEN s = .next t := by
  rcases execExpand_cases LEN s with ⟨-, h⟩ | ⟨x, hx, ⟨-, h⟩ | ⟨-, f, hf, -⟩ | ⟨-, -, h⟩⟩
  · exact ⟨_, h⟩
  · exact ⟨_, h⟩
  · cases (scheduleBounds_eq_none (hs x hx)).symm.trans hf
  · exact ⟨_, h⟩

theorem roundTransform_answers_of_inv (hs : s.Inv)
    (f : (w : WordSize) → List (Word w) → Nat → Word w × Word w → Word w × Word w) :
    ∃ t, roundTransform f s = .next t := by
  rcases roundTransform_cases f s with ⟨-, h⟩ | ⟨x, S, hx, hS, ⟨hshort, -⟩ | ⟨-, y0, y1, h, -⟩⟩
  · exact ⟨_, h⟩
  · exact absurd (roundKeys_le_length_of_inv hs hx hS) (Nat.not_le.mpr hshort)
  · exact ⟨_, h⟩

/-- Under the invariant no command stops the engine: every index it uses is in range (R65, R66). -/
theorem exec_answers_of_inv (hs : s.Inv) (i : Instr) : ∃ t, exec i s = .next t := by
  cases i with
  | create W R B =>
    rcases execCreate_cases W R B s with ⟨-, h⟩ | ⟨w, -, h⟩
    · exact ⟨_, h⟩
    · exact ⟨_, h⟩
  | expand LEN => exact execExpand_answers_of_inv hs LEN
  | encrypt => exact roundTransform_answers_of_inv hs _
  | decrypt => exact roundTransform_answers_of_inv hs _

theorem step_answers_of_inv (hs : s.Inv) : ∃ t, step s = .next t := by
  rcases step_cases s with ⟨-, h⟩ | ⟨word, why, -, -, h⟩ | ⟨word, i, -, -, h⟩
  · exact ⟨s, h⟩
  · exact ⟨_, h⟩
  · rw [h]
    exact exec_answers_of_inv hs i

/-- A step with a command pending is not idle, so it ends with that command's response. -/
theorem step_next_response_of_pending {t : State} (hpending : s.cmd ≠ none) (h : step s = .next t) :
    t.response ≠ none := by
  rcases step_next_cases h with ⟨hidle, -⟩ | ⟨u, r, rfl⟩
  · exact absurd hidle hpending
  · exact Option.some_ne_none r

/-- Settles O10: under the invariant a step answers, and its answer ends the pending command. -/
theorem everyCommandIsAnswered : Obligations.EveryCommandIsAnswered := by
  intro s hs
  obtain ⟨t, ht⟩ := step_answers_of_inv hs
  exact ⟨t, ht, fun hpending => ⟨step_next_cmd ht, step_next_response_of_pending hpending ht⟩⟩

end Sys2Proof.Machine

/-! ### One command at a time (20_memory.md R69, R72, 70_reset_and_hazards.md R244) -/

namespace Sys2Proof.Machine

/-- Settles O57: every step leaves the port free, where `issue` needs no wait. -/
theorem commandsRunOneAtATime : Obligations.CommandsRunOneAtATime := by
  intro s t c h
  have hready : t.cmd = none := step_next_cmd h
  have haccepted : t.present c = t.drive c := present_of_ready hready c
  have hissue : issue c t = step (t.drive c) := issue_of_ready hready c
  refine ⟨hready, fun hpending => ⟨step_next_response_of_pending hpending h, ?_⟩, ?_, ?_, ?_⟩
  · obtain ⟨word, hword⟩ := Option.ne_none_iff_exists'.mp hpending
    rw [present_of_pending hword, h]
  · rw [issue_of_step h, hissue]
  · rw [hissue, haccepted]
  · rw [haccepted, drive_cmd]

end Sys2Proof.Machine

/-! ### The stop of a transform (20_memory.md R65) -/

namespace Sys2Proof.Machine

section Transform

variable {s : State} (f : (w : WordSize) → List (Word w) → Nat → Word w × Word w → Word w × Word w)

theorem roundTransform_fault_of_short {x : Context} {S : List (Word x.w)} (hx : s.ctx = some x) (hS : x.S = some S)
    (hshort : S.length < 2 * x.r.toNat + 2) : roundTransform f s = .fault .tableBounds := by
  simp only [roundTransform, hx, hS, if_pos hshort]

theorem roundTransform_fault_cases {e : Fault} (h : roundTransform f s = .fault e) :
    e = .tableBounds ∧ ∃ x S, s.ctx = some x ∧ x.S = some S ∧ S.length < 2 * x.r.toNat + 2 := by
  rcases roundTransform_cases f s with ⟨-, h1⟩ | ⟨x, S, hx, hS, ⟨hshort, h1⟩ | ⟨-, y0, y1, h1, -⟩⟩ <;>
    cases h1.symm.trans h
  exact ⟨rfl, x, S, hx, hS, hshort⟩

theorem roundTransform_ne_refused (why : Refusal) : roundTransform f s ≠ .refused why := by
  intro h
  rcases roundTransform_cases f s with ⟨-, h1⟩ | ⟨x, S, -, -, ⟨-, h1⟩ | ⟨-, y0, y1, h1, -⟩⟩ <;> cases h1.symm.trans h

end Transform

/-- Settles O46: both commands are the shared transform, which checks the table before it reads. -/
theorem transformsCheckTheTableBounds : Obligations.TransformsCheckTheTableBounds := by
  refine ⟨fun s x S hx hS hshort => ⟨?_, ?_, fun hs => ?_⟩, fun s e h => ?_, fun s why => ⟨?_, ?_⟩⟩
  · exact roundTransform_fault_of_short _ hx hS hshort
  · exact roundTransform_fault_of_short _ hx hS hshort
  · exact absurd (roundKeys_le_length_of_inv hs hx hS) (Nat.not_le.mpr hshort)
  · exact h.elim (roundTransform_fault_cases _) (roundTransform_fault_cases _)
  · exact roundTransform_ne_refused _ why
  · exact roundTransform_ne_refused _ why

end Sys2Proof.Machine

/-! ### The bytes of the key words (20_memory.md R61) -/

namespace Sys2Proof.Machine

variable {w : WordSize}

/-- Byte `n` of an array of words: byte `n mod u` of word `n div u`, which is where R61 puts `K[n]`. -/
def laneByte (L : List (Word w)) (n : Nat) : Byte := (wordAt L (n / w.bytes)).extractLsb' (8 * (n % w.bytes)) 8

/-- The shift of R61 puts a byte in its own lane `p` and zeros in the others. -/
theorem shiftedByte_lane (x : Byte) {p q : Nat} (hq : q < w.bytes) :
    (x.setWidth w.bits <<< (8 * p)).extractLsb' (8 * q) 8 = if q = p then x else 0 := by
  have hbits : w.bits = 8 * w.bytes := bits_eq_eight_mul_bytes w
  apply BitVec.eq_of_getLsbD_eq
  intro k hk
  have hin : 8 * q + k < w.bits := by omega
  simp only [BitVec.getLsbD_extractLsb', BitVec.getLsbD_shiftLeft, BitVec.getLsbD_setWidth, hk, hin, decide_true,
    Bool.true_and]
  split_ifs with hqp
  · subst hqp
    have hsame : 8 * q + k - 8 * q = k := by omega
    have hlow : k < w.bits := by omega
    simp [hsame, hlow]
  · rcases Nat.lt_or_gt_of_ne hqp with hlt | hgt
    · have hbelow : 8 * q + k < 8 * p := by omega
      simp [hbelow]
    · have habove : 8 ≤ 8 * q + k - 8 * p := by omega
      simp [BitVec.getLsbD_of_ge x _ habove]

/-- One step of the loop of R61 joins the key byte to its lane and leaves every other lane. -/
theorem laneByte_loadKeyByte {k : Nat} {L : List (Word w)} (hk : k < w.bytes * L.length) (x : Byte) (n : Nat) :
    laneByte (loadKeyByte w k x L) n = laneByte L n ||| if n = k then x else 0 := by
  have hword : k / w.bytes < L.length := Nat.div_lt_of_lt_mul hk
  by_cases hn : n / w.bytes = k / w.bytes
  · have hlane : n % w.bytes = k % w.bytes ↔ n = k :=
      ⟨fun h => Nat.ext_div_modEq hn h, fun h => by rw [h]⟩
    have hread : wordAt (loadKeyByte w k x L) (n / w.bytes) =
        wordAt L (n / w.bytes) ||| x.setWidth w.bits <<< (8 * (k % w.bytes)) := by
      simp [wordAt, loadKeyByte, hn, hword]
    simp only [laneByte, hread, BitVec.extractLsb'_or, shiftedByte_lane x (Nat.mod_lt n (bytes_pos w)), hlane]
  · have hne : n ≠ k := fun h => hn (by rw [h])
    have hread : wordAt (loadKeyByte w k x L) (n / w.bytes) = wordAt L (n / w.bytes) := by
      simp [wordAt, loadKeyByte, List.getElem?_set_ne (Ne.symm hn)]
    simp [laneByte, hread, hne]

/-- The loop of R61 from index `k` on joins the bytes it loads to the lanes from `k` on. -/
theorem laneByte_loadKeyBytes {k : Nat} {xs : List Byte} {L : List (Word w)} (hfit : k + xs.length ≤ w.bytes * L.length)
    (n : Nat) : laneByte (loadKeyBytes w k xs L) n = laneByte L n ||| if k ≤ n then xs.getD (n - k) 0 else 0 := by
  induction xs generalizing k L with
  | nil => simp [loadKeyBytes]
  | cons x xs ih =>
    rw [List.length_cons] at hfit
    have hk : k < w.bytes * L.length := by omega
    rw [loadKeyBytes, ih (by rw [loadKeyByte_length]; omega), laneByte_loadKeyByte hk]
    rcases Nat.lt_trichotomy n k with hlt | rfl | hgt
    · simp [show ¬ k ≤ n by omega, show ¬ k + 1 ≤ n by omega, show n ≠ k by omega]
    · simp
    · have hsucc : n - k = n - (k + 1) + 1 := by omega
      simp [show k ≤ n by omega, show k + 1 ≤ n by omega, show n ≠ k by omega, hsucc]

theorem laneByte_replicate_zero (c n : Nat) : laneByte (List.replicate c (0 : Word w)) n = 0 := by
  have hread : wordAt (List.replicate c (0 : Word w)) (n / w.bytes) = 0 := by
    rw [wordAt, List.getD_eq_getElem?_getD, List.getElem?_getD_replicate_default_eq]
  rw [laneByte, hread]
  exact BitVec.extractLsb'_zero

theorem laneByte_keyWords {c : Nat} {key : List Byte} (hfit : key.length ≤ w.bytes * c) (n : Nat) :
    laneByte (keyWords w c key) n = key.getD n 0 := by
  rw [keyWords, laneByte_loadKeyBytes (by simpa using hfit), laneByte_replicate_zero]
  simp

/-- Settles O37: byte `p` of word `m` is lane `u·m + p`. -/
theorem keyBytesLandInTheirLanes : Obligations.KeyBytesLandInTheirLanes := by
  refine ⟨fun w c key m p hfit _ hp => ⟨keyWords_length c key, ?_⟩, by decide⟩
  have hdiv : (w.bytes * m + p) / w.bytes = m := by
    rw [Nat.mul_add_div (bytes_pos w), Nat.div_eq_of_lt hp, Nat.add_zero]
  have hmod : (w.bytes * m + p) % w.bytes = p := by rw [Nat.mul_add_mod, Nat.mod_eq_of_lt hp]
  have hlane := laneByte_keyWords hfit (w.bytes * m + p)
  rwa [laneByte, hdiv, hmod] at hlane

end Sys2Proof.Machine

/-! ### Command words (30_encoding.md R91 to R99) -/

namespace Sys2Proof

section Formats

variable {c : BitVec 32}

/-- The opcode selects the format (R91), here as a number. -/
theorem decode_eq (c : BitVec 32) :
    decode c = if c.toNat / 2 ^ 28 = 1 then decodeCreate c
      else if c.toNat / 2 ^ 28 = 2 then decodeExpand c
      else if c.toNat / 2 ^ 28 = 3 then decodeBlock .encrypt c
      else if c.toNat / 2 ^ 28 = 4 then decodeBlock .decrypt c
      else .error .reservedOpcode := by
  rcases decode_cases c with ⟨hopc, hd⟩ | ⟨hopc, hd⟩ | ⟨hopc, hd⟩ | ⟨hopc, hd⟩ | ⟨hopc, hd⟩
  · rw [hd, if_pos hopc]
  · rw [hd, if_neg (by omega), if_pos hopc]
  · rw [hd, if_neg (by omega), if_neg (by omega), if_pos hopc]
  · rw [hd, if_neg (by omega), if_neg (by omega), if_neg (by omega), if_pos hopc]
  · rw [hd, if_neg (by omega), if_neg (by omega), if_neg (by omega), if_neg (by omega)]

/-! Each format tests its reserved bits (R98), here as numbers. -/

theorem decodeCreate_eq (c : BitVec 32) :
    decodeCreate c = if c.toNat / 2 ^ 24 % 2 ^ 4 = 0 then .ok (.create (field c 16 8) (field c 8 8) (field c 0 8))
      else .error .reservedBits := by
  simp only [decodeCreate, field_eq_iff, BitVec.toNat_zero, BitVec.ofNat_eq_ofNat]

theorem decodeExpand_eq (c : BitVec 32) :
    decodeExpand c = if c.toNat / 2 ^ 8 % 2 ^ 20 = 0 then .ok (.expand (field c 0 8)) else .error .reservedBits := by
  simp only [decodeExpand, field_eq_iff, BitVec.toNat_zero, BitVec.ofNat_eq_ofNat]

theorem decodeBlock_eq (i : Instr) (c : BitVec 32) :
    decodeBlock i c = if c.toNat % 2 ^ 28 = 0 then .ok i else .error .reservedBits := by
  simp only [decodeBlock, field_eq_iff, BitVec.toNat_zero, BitVec.ofNat_eq_ofNat, pow_zero, Nat.div_one]

/-! A word whose opcode and reserved bits are those of a format decodes to that format's command. -/

theorem decode_of_createFormat (h : c.toNat / 2 ^ 24 = 0x10) :
    decode c = .ok (.create (field c 16 8) (field c 8 8) (field c 0 8)) := by
  rw [decode_eq, if_pos (by omega), decodeCreate_eq, if_pos (by omega)]

theorem decode_of_expandFormat (h : c.toNat / 2 ^ 8 = 0x200000) : decode c = .ok (.expand (field c 0 8)) := by
  rw [decode_eq, if_neg (by omega), if_pos (by omega), decodeExpand_eq, if_pos (by omega)]

theorem encode_create_fields (h : c.toNat / 2 ^ 24 = 0x10) :
    encode (.create (field c 16 8) (field c 8 8) (field c 0 8)) = c := by
  apply BitVec.eq_of_toNat_eq
  rw [encode_create_toNat, field_toNat, field_toNat, field_toNat]
  omega

theorem encode_expand_field (h : c.toNat / 2 ^ 8 = 0x200000) : encode (.expand (field c 0 8)) = c := by
  apply BitVec.eq_of_toNat_eq
  rw [encode_expand_toNat, field_toNat]
  omega

end Formats

/-- What the encoder builds, the decoder takes apart: opcode, reserved zeros and every field. -/
theorem decode_encode (i : Instr) : decode (encode i) = .ok i := by
  cases i with
  | create W R B =>
    have hword := encode_create_toNat W R B
    have hW := W.isLt
    have hR := R.isLt
    have hB := B.isLt
    rw [decode_of_createFormat (by omega), (field_eq_iff _ 16 8 W).mpr (by omega), (field_eq_iff _ 8 8 R).mpr (by omega),
      (field_eq_iff _ 0 8 B).mpr (by omega)]
  | expand LEN =>
    have hword := encode_expand_toNat LEN
    have hLEN := LEN.isLt
    rw [decode_of_expandFormat (by omega), (field_eq_iff _ 0 8 LEN).mpr (by omega)]
  | encrypt => rfl
  | decrypt => rfl

/-- No other word decodes to the command: opcode, reserved zeros and fields are all the bits of a word. -/
theorem encode_of_decode {c : BitVec 32} {i : Instr} (h : decode c = .ok i) : encode i = c := by
  rcases decode_cases c with ⟨hopc, hd⟩ | ⟨hopc, hd⟩ | ⟨hopc, hd⟩ | ⟨hopc, hd⟩ | ⟨-, hd⟩ <;> rw [hd] at h
  · rw [decodeCreate_eq] at h
    split_ifs at h with hzero
    cases h
    exact encode_create_fields (by omega)
  · rw [decodeExpand_eq] at h
    split_ifs at h with hzero
    cases h
    exact encode_expand_field (by omega)
  · rw [decodeBlock_eq] at h
    split_ifs at h with hzero
    cases h
    exact BitVec.eq_of_toNat_eq (y := c) (show 0x30000000 = c.toNat by omega)
  · rw [decodeBlock_eq] at h
    split_ifs at h with hzero
    cases h
    exact BitVec.eq_of_toNat_eq (y := c) (show 0x40000000 = c.toNat by omega)
  · cases h

theorem decode_eq_ok_iff (c : BitVec 32) (i : Instr) : decode c = .ok i ↔ c = encode i :=
  ⟨fun h => (encode_of_decode h).symm, fun h => h ▸ decode_encode i⟩

/-- Settles O1: the encoder is the decoder's inverse on the words that decode. -/
theorem decodeExactlyInvertsEncode : Obligations.DecodeExactlyInvertsEncode := decode_eq_ok_iff

/-! #### Match and mask (R99) -/

/-- Every command's word matches its row of the opcode table. -/
theorem encode_and_mask (i : Instr) : encode i &&& Laws.MatchMask.mask i = Laws.MatchMask.pattern i := by
  cases i with
  | create W R B => exact Laws.MatchMask.create W R B
  | expand LEN => exact Laws.MatchMask.expand LEN
  | encrypt => exact Laws.MatchMask.encrypt
  | decrypt => exact Laws.MatchMask.decrypt

theorem and_mask_of_decode {c : BitVec 32} {i : Instr} (h : decode c = .ok i) :
    c &&& Laws.MatchMask.mask i = Laws.MatchMask.pattern i := by
  rw [← encode_of_decode h, encode_and_mask]

/-- A mask of high ones keeps the number above its lowest bit. -/
theorem toNat_div_of_and_highOnes {c v : BitVec 32} (k : Nat) (h : c &&& BitVec.allOnes 32 <<< k = v) :
    c.toNat / 2 ^ k = v.toNat / 2 ^ k := by
  have hle : c.toNat / 2 ^ k * 2 ^ k ≤ c.toNat := Nat.div_mul_le_self _ _
  have hv : v.toNat = c.toNat / 2 ^ k * 2 ^ k := by
    rw [← h, ← BitVec.shiftLeft_ushiftRight, BitVec.toNat_shiftLeft, BitVec.toNat_ushiftRight, Nat.shiftRight_eq_div_pow,
      Nat.shiftLeft_eq, Nat.mod_eq_of_lt (Nat.lt_of_le_of_lt hle c.isLt)]
  rw [hv, Nat.mul_div_cancel _ (Nat.two_pow_pos k)]

/-- Settles O2: a word that matches a row has that row's opcode and reserved zeros. -/
theorem decodeFollowsMatchAndMask : Obligations.DecodeFollowsMatchAndMask := by
  intro c
  have hones : (0xFFFFFFFF : BitVec 32) = BitVec.allOnes 32 := rfl
  refine ⟨⟨?_, fun h => ?_⟩, ⟨?_, fun h => ?_⟩, ?_, ?_⟩
  · rintro ⟨W, R, B, h⟩
    exact and_mask_of_decode h
  · exact ⟨_, _, _, decode_of_createFormat (toNat_div_of_and_highOnes 24 h)⟩
  · rintro ⟨LEN, h⟩
    exact and_mask_of_decode h
  · exact ⟨_, decode_of_expandFormat (toNat_div_of_and_highOnes 8 h)⟩
  · rw [hones, BitVec.and_allOnes]
    exact decode_eq_ok_iff c .encrypt
  · rw [hones, BitVec.and_allOnes]
    exact decode_eq_ok_iff c .decrypt

/-! #### Illegal words (R97, R98) -/

/-- Settles O3: a reserved opcode selects no format. -/
theorem reservedOpcodesAreIllegal : Obligations.ReservedOpcodesAreIllegal := by
  intro c hopc
  rw [decode_eq, if_neg (by omega), if_neg (by omega), if_neg (by omega), if_neg (by omega)]

/-- Settles O4: the opcode selects a format, whose test of the reserved bits fails. -/
theorem reservedBitsAreIllegal : Obligations.ReservedBitsAreIllegal := by
  rintro c (⟨hopc, hbits⟩ | ⟨hopc, hbits⟩ | ⟨hopc, hbits⟩ | ⟨hopc, hbits⟩)
  · rw [decode_eq, if_pos hopc, decodeCreate_eq, if_neg hbits]
  · rw [decode_eq, if_neg (by omega), if_pos hopc, decodeExpand_eq, if_neg hbits]
  · rw [decode_eq, if_neg (by omega), if_neg (by omega), if_pos hopc, decodeBlock_eq, if_neg hbits]
  · rw [decode_eq, if_neg (by omega), if_neg (by omega), if_neg (by omega), if_pos hopc, decodeBlock_eq, if_neg hbits]

/-- Settles O5: the legal words are encodings, the others have a reserved bit set or a reserved opcode. -/
theorem specWordsDecodeAsWritten : Obligations.SpecWordsDecodeAsWritten :=
  ⟨decode_encode (.create 32 12 16), decode_encode (.create 16 255 255), decode_encode (.create 8 12 16),
    decode_encode (.expand 16), decode_encode .encrypt, decode_encode .decrypt,
    reservedBitsAreIllegal _ (by decide), reservedBitsAreIllegal _ (by decide), reservedBitsAreIllegal _ (by decide),
    reservedBitsAreIllegal _ (by decide), reservedOpcodesAreIllegal _ (by decide), reservedOpcodesAreIllegal _ (by decide)⟩

end Sys2Proof

/-! ### Illegal words and responses as the host sees them (30_encoding.md R96, R97, 60_exceptions.md R203, R204) -/

namespace Sys2Proof.Machine

/-- Settles O8: decode comes first, so neither payload nor context is looked at. -/
theorem illegalWordsAnswerIllegalCommand : Obligations.IllegalWordsAnswerIllegalCommand := by
  intro s c why hs hd
  exact ⟨_, issue_of_decode_error hd hs, raise_response _ _, raise_ctx _ _⟩

/-- Settles O21, by the tables of R96 and R204. -/
theorem responseCodesAndDataOutputs : Obligations.ResponseCodesAndDataOutputs :=
  ⟨rfl, fun _ _ => rfl, rfl, rfl, rfl, rfl, rfl, fun _ => ⟨rfl, rfl⟩, fun _ _ => ⟨rfl, rfl⟩⟩

end Sys2Proof.Machine

/-! ### The key buffer of `EXPAND` (30_encoding.md R93, 42_expand_key_schedule.md R161) -/

namespace Sys2Proof.Machine

/-- Without a context whose key length the operands meet, `EXPAND` is refused before it looks at anything else. -/
theorem execExpand_refused {s : State} {LEN : BitVec 8} (h : ∀ x ∈ s.ctx, keyLengthOk x LEN s.key = false) :
    execExpand LEN s = .next (s.raise .invalidParameter) := by
  rcases execExpand_cases LEN s with ⟨-, h1⟩ | ⟨x, hx, ⟨-, h1⟩ | ⟨hk, -⟩ | ⟨hk, -⟩⟩
  · exact h1
  · exact h1
  · exact absurd hk (by simp [h x hx])
  · exact absurd hk (by simp [h x hx])

theorem keyLengthOk_of_not_payloadFits {LEN : BitVec 8} {key : List Byte} (h : (Instr.expand LEN).payloadFits key = false)
    (x : Context) : keyLengthOk x LEN key = false := by
  have hlen : (key.length == LEN.toNat) = false := h
  rw [keyLengthOk, hlen, Bool.and_false]

/-- Settles O36: no context accepts a buffer without `LEN` bytes. -/
theorem expandRefusesIllFormedKeyBuffers : Obligations.ExpandRefusesIllFormedKeyBuffers := by
  intro s LEN h
  exact ⟨_, execExpand_refused fun x _ => keyLengthOk_of_not_payloadFits h x, raise_response _ _, raise_ctx _ _⟩

end Sys2Proof.Machine

/-! ### The block words in and out (30_encoding.md R95, R96) -/

namespace Sys2Proof.Machine

/-- An input word is the port's value modulo `2^w` (R95). -/
theorem blockWord_congr {w : WordSize} {x y : DataWord} (h : x.toNat % 2 ^ w.bits = y.toNat % 2 ^ w.bits) :
    blockWord w x = blockWord w y := by
  apply BitVec.eq_of_toNat_eq
  simpa only [blockWord, BitVec.toNat_setWidth] using h

/-- An output word is below `2^w` (R96). -/
theorem zextXlen_toNat_lt {w : WordSize} (v : Word w) : (zextXlen v).toNat < 2 ^ w.bits := by
  rw [zextXlen, BitVec.toNat_setWidth_of_le (bits_le_xlen w)]
  exact v.isLt

section Transform

variable {s s' t : State} {x : Context} {f : (w : WordSize) → List (Word w) → Nat → Word w × Word w → Word w × Word w}

/-- The shared transform reads the data ports through `blockWord` only. -/
theorem roundTransform_eq_of_blockWord (hx : s.ctx = some x) (hx' : s'.ctx = some x)
    (h0 : blockWord x.w s.x0 = blockWord x.w s'.x0) (h1 : blockWord x.w s.x1 = blockWord x.w s'.x1) :
    roundTransform f s = roundTransform f s' := by
  have hctx : s.ctx = s'.ctx := hx.trans hx'.symm
  simp only [roundTransform, hx, hx', h0, h1, raise_eq_of_ctx hctx, respond_eq_of_ctx hctx]

/-- The shared transform drives the data ports through `zextXlen` only. -/
theorem roundTransform_block_lt {y0 y1 : DataWord} (hx : s.ctx = some x) (h : roundTransform f s = .next t)
    (hblock : t.response = some (.okBlock y0 y1)) : y0.toNat < 2 ^ x.w.bits ∧ y1.toNat < 2 ^ x.w.bits := by
  rcases roundTransform_cases f s with ⟨-, h1⟩ | ⟨z, S, hz, -, ⟨-, h1⟩ | ⟨-, z0, z1, h1, hz0, hz1⟩⟩ <;>
    cases h1.symm.trans h
  · cases hblock
  · cases hx.symm.trans hz
    cases hblock
    exact ⟨hz0 ▸ zextXlen_toNat_lt _, hz1 ▸ zextXlen_toNat_lt _⟩

end Transform

/-- Settles O48: equal values modulo `2^w` are one block word. -/
theorem highInputBitsAreIgnored : Obligations.HighInputBitsAreIgnored := by
  intro s x x0 x1 hx h0 h1
  exact ⟨roundTransform_eq_of_blockWord hx hx (blockWord_congr h0) (blockWord_congr h1),
    roundTransform_eq_of_blockWord hx hx (blockWord_congr h0) (blockWord_congr h1)⟩

/-- Settles O49: both commands are the shared transform. -/
theorem outputsAreZeroExtended : Obligations.OutputsAreZeroExtended := by
  intro s t x y0 y1 hx h hblock
  exact h.elim (roundTransform_block_lt hx · hblock) (roundTransform_block_lt hx · hblock)

/-- Settles O51, by running the two commands on the table of the example. -/
theorem roundTransformWorkedExample : Obligations.RoundTransformWorkedExample :=
  ⟨⟨_, rfl, rfl⟩, ⟨_, rfl, rfl⟩⟩

end Sys2Proof.Machine

/-! ### The parameters of `CREATE` (41_create_resolver.md R141 to R148) -/

namespace Sys2Proof.Machine

/-! #### The key length in words (R142) -/

theorem keyWordCount_eq_ceilDiv (w : WordSize) (b : Nat) : keyWordCount w b = max 1 (8 * b ⌈/⌉ w.bits) := by
  rw [keyWordCount, Nat.ceilDiv_eq_add_pred_div]

/-- `c` is characterised by the word counts it does not exceed: those, at least one, that hold `b` bytes. -/
theorem keyWordCount_le_iff {w : WordSize} {b c : Nat} : keyWordCount w b ≤ c ↔ 1 ≤ c ∧ 8 * b ≤ w.bits * c := by
  rw [keyWordCount_eq_ceilDiv, max_le_iff, ceilDiv_le_iff_le_mul (bits_pos w)]

theorem keyWordCount_zero (w : WordSize) : keyWordCount w 0 = 1 := by
  rw [keyWordCount_eq_ceilDiv, Nat.mul_zero, zero_ceilDiv, Nat.max_zero]

/-- The ceiling counted in bytes per word holds the same bytes, and at least one word of them when `b > 0`. -/
theorem keyWordCount_of_pos (w : WordSize) {b : Nat} (hb : 0 < b) : keyWordCount w b = (b + w.bytes - 1) / w.bytes := by
  rw [← Nat.ceilDiv_eq_add_pred_div]
  refine eq_of_forall_ge_iff fun c => ?_
  rw [keyWordCount_le_iff, ceilDiv_le_iff_le_mul (bytes_pos w), bits_eq_eight_mul_bytes, Nat.mul_assoc,
    Nat.mul_le_mul_left_iff (by decide)]
  refine and_iff_right_of_imp fun hfit => ?_
  exact Nat.pos_of_mul_pos_left (Nat.lt_of_lt_of_le hb hfit)

/-- Settles O24: `c` is a word count that fits and below every other that does. -/
theorem keyWordCountIsLeastThatFits : Obligations.KeyWordCountIsLeastThatFits := by
  refine ⟨fun w b => ?_, by decide⟩
  obtain ⟨hone, hfit⟩ := keyWordCount_le_iff.mp (Nat.le_refl (keyWordCount w b))
  refine ⟨hone, hfit, fun c hc hbytes => keyWordCount_le_iff.mpr ⟨hc, hbytes⟩, ?_⟩
  split_ifs with hb
  · exact keyWordCount_of_pos w hb
  · rw [Nat.eq_zero_of_not_pos hb, keyWordCount_zero]

/-! #### The two answers of `CREATE` (R141, R146, R147) -/

variable {s : State} {W R B : BitVec 8} {w : WordSize}

theorem exec_create_of_supported (hW : W.toNat = w.bits) :
    exec (.create W R B) s = .next ((s.withContext (resolve w R B)).respond .ok) := by
  simp only [exec, execCreate, wordSizeOf_of_toNat hW]

theorem wordSizeOf_eq_none (hW : ∀ w : WordSize, W.toNat ≠ w.bits) : wordSizeOf W = none :=
  Option.eq_none_iff_forall_ne_some.mpr fun w hw => hW w (wordSizeOf_eq_some hw)

theorem exec_create_of_unsupported (hW : ∀ w : WordSize, W.toNat ≠ w.bits) :
    exec (.create W R B) s = .next (s.raise .invalidParameter) := by
  simp only [exec, execCreate, wordSizeOf_eq_none hW]

/-- Settles O22: the context written is `resolve`'s, which is well-formed, so `c` and `t` are not cut by their widths. -/
theorem createWritesTheWholeContext : Obligations.CreateWritesTheWholeContext := by
  intro s w W R B hW
  obtain ⟨hc, ht, hP, hQ, -⟩ := resolve_wf w R B
  exact ⟨_, resolve w R B, exec_create_of_supported hW, rfl, rfl, rfl, rfl, rfl, hc, ht, hP, hQ, rfl, rfl, rfl⟩

/-- Settles O23: an error leaves the context. -/
theorem createRefusesOtherWordSizes : Obligations.CreateRefusesOtherWordSizes := by
  intro s W R B h16 h32 h64
  have hW : ∀ w : WordSize, W.toNat ≠ w.bits
    | .w16 => h16
    | .w32 => h32
    | .w64 => h64
  exact ⟨_, exec_create_of_unsupported hW, raise_response _ _, raise_ctx _ _⟩

/-! #### The magic constants (R144, R145) -/

/-- The open choice leaves two candidates. -/
theorem magicQ64_cases : magicQ64 = 0x9E3779B97F4A7C15#64 ∨ magicQ64 = 0x9E3779B97F4A7C17#64 := by
  unfold magicQ64
  split_ifs
  · exact .inr rfl
  · exact .inl rfl

/-- Settles O25, by the table and the two candidates for `Q_64`. -/
theorem magicConstantsAreTheTable : Obligations.MagicConstantsAreTheTable :=
  ⟨rfl, rfl, rfl, rfl, rfl, magicQ64_cases⟩

theorem magicQ64_odd : magicQ64.toNat % 2 = 1 := by
  rcases magicQ64_cases with h | h
  · rw [h]; rfl
  · rw [h]; rfl

/-- Settles O26: the constants of the table end in a one, and so do both candidates for `Q_64`. -/
theorem magicConstantsAreOdd : Obligations.MagicConstantsAreOdd
  | .w16 => ⟨rfl, rfl⟩
  | .w32 => ⟨rfl, rfl⟩
  | .w64 => ⟨rfl, magicQ64_odd⟩

end Sys2Proof.Machine

/-! ### The key schedule (42_expand_key_schedule.md R160 to R169, R173) -/

namespace Sys2Proof.Machine

/-! #### The initial table and the mixing iterations (R163 to R166) -/

/-- The entries before mixing run from `P` in steps of `Q` (R163). -/
theorem initTable_wordAt_toNat {w : WordSize} (q : Word w) {t k : Nat} (hk : k < t) (p : Word w) :
    (wordAt (initTable q t p) k).toNat = (p.toNat + k * q.toNat) % 2 ^ w.bits := by
  induction t generalizing k p with
  | zero => omega
  | succ t ih =>
    cases k with
    | zero => rw [initTable, wordAt_cons_zero, Nat.zero_mul, Nat.add_zero, Nat.mod_eq_of_lt p.isLt]
    | succ k =>
      calc (wordAt (initTable q (t + 1) p) (k + 1)).toNat
          = (wordAt (initTable q t (addW p q)) k).toNat := by rw [initTable, wordAt_cons_succ]
        _ = ((p.toNat + q.toNat) % 2 ^ w.bits + k * q.toNat) % 2 ^ w.bits := by
          rw [ih (by omega), addW, BitVec.toNat_add]
        _ = (p.toNat + (k + 1) * q.toNat) % 2 ^ w.bits := by
          rw [Nat.mod_add_mod, Nat.add_assoc, Nat.succ_mul, Nat.add_comm q.toNat]

/-- Settles O38, by induction on the table. -/
theorem tableStartsAsArithmeticSequence : Obligations.TableStartsAsArithmeticSequence := by
  intro w p q t k hk
  exact ⟨initTable_length q t p, initTable_wordAt_toNat q hk p⟩

/-- Settles O39: iteration `k` is the one taken last, and it works at the indices `k mod t` and `k mod c`. -/
theorem mixingIterationFollowsTheRule : Obligations.MixingIterationFollowsTheRule := by
  intro w t c k S L
  obtain ⟨hi, hj⟩ := mixMany_indices t c k S L
  rw [mixMany_succ, ← hi, ← hj]
  exact ⟨rfl, rfl, rfl, rfl, rfl⟩

/-! #### The answers of `EXPAND` (R161, R168, R170) -/

section Answers

variable {s t : State} {x : Context} {LEN : BitVec 8}

theorem keyLengthOk_iff {key : List Byte} : keyLengthOk x LEN key = true ↔ LEN = x.b ∧ key.length = LEN.toNat := by
  simp [keyLengthOk]

theorem exec_expand_of_keyLengthOk (hx : s.ctx = some x) (hwf : x.Wf) (hk : keyLengthOk x LEN s.key = true) :
    exec (.expand LEN) s = .next ((s.withContext (x.withTable (keySchedule x s.key))).respond .ok) := by
  simp only [exec, execExpand, hx, hk, scheduleBounds_eq_none hwf, if_true]

/-- Only a key buffer that suits the context leads to the response `OK`. -/
theorem keyLengthOk_of_exec_expand_ok (hx : s.ctx = some x) (h : exec (.expand LEN) s = .next t)
    (hok : t.response = some .ok) : keyLengthOk x LEN s.key = true := by
  cases hk : keyLengthOk x LEN s.key with
  | true => rfl
  | false =>
    have herror : exec (.expand LEN) s = .next (s.raise .invalidParameter) := by
      refine execExpand_refused fun y hy => ?_
      cases hx.symm.trans hy
      exact hk
    cases herror.symm.trans h
    cases hok

end Answers

/-- Settles O33: the operands suit the context, and a well-formed context passes the range checks. -/
theorem expandRebuildsTheTable : Obligations.ExpandRebuildsTheTable := by
  intro s x LEN hx hwf hLEN hlen
  have hk : keyLengthOk x LEN s.key = true := keyLengthOk_iff.mpr ⟨hLEN, hlen⟩
  exact ⟨_, keySchedule x s.key, exec_expand_of_keyLengthOk hx hwf hk, rfl, rfl, rfl, keySchedule_length x s.key, rfl⟩

/-- Settles O35: no context, or one of another key length, accepts the operands. -/
theorem expandRefusesWrongLengths : Obligations.ExpandRefusesWrongLengths := by
  intro s LEN h
  have hrefused : ∀ x ∈ s.ctx, keyLengthOk x LEN s.key = false := by
    intro y hy
    rcases h with hnone | ⟨x, hx, hLEN⟩
    · cases hnone.symm.trans hy
    · cases hx.symm.trans hy
      exact Bool.eq_false_iff.mpr fun hk => hLEN (keyLengthOk_iff.mp hk).1
  exact ⟨_, execExpand_refused hrefused, raise_response _ _, raise_ctx _ _⟩

/-- Settles O41, by running the schedule of the example. -/
theorem expandWorkedExample : Obligations.ExpandWorkedExample :=
  ⟨_, rfl, rfl⟩

/-! #### What the table is a function of (R169) -/

/-- A well-formed context has the derived fields of its parameters, and the schedule does not read the table before: so
the context `EXPAND` writes is made of `w`, `r`, `b` and the key. -/
theorem withTable_keySchedule_of_wf {x : Context} (hwf : x.Wf) (key : List Byte) :
    x.withTable (keySchedule x key) =
      (resolve x.w x.r x.b).withTable (keySchedule (resolve x.w x.r x.b) key) := by
  obtain ⟨w, r, b, c, t, P, Q, S⟩ := x
  obtain ⟨hc, ht, hP, hQ, -⟩ := hwf
  obtain ⟨hc', ht', -⟩ := resolve_wf w r b
  obtain rfl : c = (resolve w r b).c := BitVec.eq_of_toNat_eq (hc.trans hc'.symm)
  obtain rfl : t = (resolve w r b).t := BitVec.eq_of_toNat_eq (ht.trans ht'.symm)
  obtain rfl : P = magicP w := hP
  obtain rfl : Q = magicQ w := hQ
  rfl

/-- Settles O40: both runs write the context that `w`, `r`, `b` and the key determine. -/
theorem expandForgetsTheOldTable : Obligations.ExpandForgetsTheOldTable := by
  intro s s' t x x' LEN hx hx' hwf hwf' hw hr hb hkey h hok
  have hk : keyLengthOk x LEN s.key = true := keyLengthOk_of_exec_expand_ok hx h hok
  have hk' : keyLengthOk x' LEN s'.key = true := by
    rw [keyLengthOk_iff, ← hb, ← hkey]
    exact keyLengthOk_iff.mp hk
  cases (exec_expand_of_keyLengthOk hx hwf hk).symm.trans h
  refine ⟨_, exec_expand_of_keyLengthOk hx' hwf' hk', rfl, ?_⟩
  rw [respond_ctx, respond_ctx, withContext_ctx, withContext_ctx, withTable_keySchedule_of_wf hwf,
    withTable_keySchedule_of_wf hwf', hw, hr, hb, hkey]

end Sys2Proof.Machine

/-! ### The word primitives (43_word_primitives.md R120 to R128) -/

namespace Sys2Proof.Machine

section Arithmetic

variable {n : Nat}

/-! #### Addition and subtraction (R121, R122) -/

theorem addW_toNat (x y : BitVec n) : (addW x y).toNat = (x.toNat + y.toNat) % 2 ^ n := BitVec.toNat_add x y

/-- The remainder is non-negative: a borrow is made good by `2^n` (R122). -/
theorem subW_toNat (x y : BitVec n) :
    (subW x y).toNat = if y.toNat ≤ x.toNat then x.toNat - y.toNat else x.toNat + 2 ^ n - y.toNat := by
  unfold subW
  split_ifs with h
  · exact BitVec.toNat_sub_of_le h
  · rw [BitVec.toNat_sub_of_lt (Nat.lt_of_not_le h)]
    have hy := y.isLt
    omega

theorem addW_one_of_max {x : BitVec n} (hx : x.toNat = 2 ^ n - 1) : addW x 1 = 0 := by
  have hmax : x = -1#n := by
    rw [BitVec.neg_one_eq_allOnes]
    exact BitVec.eq_of_toNat_eq (hx.trans BitVec.toNat_allOnes.symm)
  rw [hmax]
  exact BitVec.add_left_neg 1#n

theorem subW_zero_one_toNat : (subW (0 : BitVec n) 1).toNat = 2 ^ n - 1 := by
  have hneg : subW (0 : BitVec n) 1 = -1#n := BitVec.zero_sub 1#n
  rw [hneg, BitVec.neg_one_eq_allOnes, BitVec.toNat_allOnes]

end Arithmetic

/-- Settles O27: `addW` is the library's addition of words. -/
theorem additionWraps : Obligations.AdditionWraps := by
  refine ⟨fun w x y z => ?_, by decide⟩
  exact ⟨addW_toNat x y, BitVec.add_comm x y, BitVec.add_assoc x y z, BitVec.add_zero x, addW_one_of_max⟩

/-- Settles O28: `subW` is the library's subtraction of words. -/
theorem subtractionWraps : Obligations.SubtractionWraps := by
  refine ⟨fun w x y => ?_, by decide⟩
  exact ⟨subW_toNat x y, BitVec.add_sub_cancel x y, BitVec.sub_self x, subW_zero_one_toNat⟩

section Rotations

variable {w : WordSize} (x : Word w) {y y' i : Nat}

/-! #### The rotation amount (R126) -/

/-- The amount counts modulo `w` only. -/
theorem rotl_congr_mod (h : y % w.bits = y' % w.bits) : rotl x y = rotl x y' := by
  simp only [rotl, rotAmount_eq_mod, h]

theorem rotl_of_mod_eq_zero (h : y % w.bits = 0) : rotl x y = x := by
  rw [rotl, rotAmount_eq_mod, if_pos h]

theorem rotr_of_mod_eq_zero (h : y % w.bits = 0) : rotr x y = x := by
  rw [rotr, rotAmount_eq_mod, if_pos h]

/-- A rotation right is the complementary rotation left: the shift pairs are the same two shifts (R125). -/
theorem rotr_eq_rotl_complement (h : 1 ≤ y % w.bits) : rotr x y = rotl x (w.bits - y % w.bits) := by
  have hlt : y % w.bits < w.bits := Nat.mod_lt y (bits_pos w)
  rw [rotr_eq_rotateRight, rotl_eq_rotateLeft, BitVec.rotateRight_def, BitVec.rotateLeft_def,
    Nat.mod_eq_of_lt (by omega : w.bits - y % w.bits < w.bits), Nat.sub_sub_self hlt.le, BitVec.or_comm]

/-! #### Where each bit comes from (R124, R125) -/

/-- Turning `n` places back undoes turning `n` places forward around a circle of `m`. -/
theorem turn_back_turn {m n k : Nat} (hn : n ≤ m) (hk : k < m) : ((k + n) % m + m - n) % m = k := by
  rw [Nat.add_sub_assoc hn, Nat.mod_add_mod, Nat.add_assoc, Nat.add_sub_cancel' hn, Nat.add_mod_right, Nat.mod_eq_of_lt hk]

/-- Turning `n` places forward undoes turning `n` places back around a circle of `m`. -/
theorem turn_turn_back {m n k : Nat} (hn : n ≤ m) (hk : k < m) : ((k + m - n) % m + n) % m = k := by
  rw [Nat.mod_add_mod, Nat.sub_add_cancel (by omega), Nat.add_mod_right, Nat.mod_eq_of_lt hk]

/-- Bit `i` after a rotation left by `n` places stood at `(i - n) mod w`: the low `n` bits are those shifted out. -/
theorem rotl_getLsbD (hi : i < w.bits) : (rotl x y).getLsbD i = x.getLsbD ((i + w.bits - y % w.bits) % w.bits) := by
  have hlt : y % w.bits < w.bits := Nat.mod_lt y (bits_pos w)
  rw [rotl_eq_rotateLeft, BitVec.getLsbD_rotateLeft]
  by_cases hlow : i < y % w.bits
  · have hindex : (i + w.bits - y % w.bits) % w.bits = w.bits - y % w.bits + i := by
      rw [Nat.mod_eq_of_lt (by omega)]
      omega
    simp only [hindex, hlow, decide_true, cond_true]
  · have hindex : (i + w.bits - y % w.bits) % w.bits = i - y % w.bits := by
      rw [Nat.sub_add_comm (Nat.le_of_not_lt hlow), Nat.add_mod_right, Nat.mod_eq_of_lt (by omega)]
    simp only [hindex, hlow, hi, decide_true, decide_false, cond_false, Bool.true_and]

/-- Bit `i` after a rotation right by `n` places stood at `(i + n) mod w`. -/
theorem rotr_getLsbD (hi : i < w.bits) : (rotr x y).getLsbD i = x.getLsbD ((i + y % w.bits) % w.bits) := by
  have hlt : y % w.bits < w.bits := Nat.mod_lt y (bits_pos w)
  rcases Nat.eq_zero_or_pos (y % w.bits) with hzero | hpos
  · rw [rotr_of_mod_eq_zero x hzero, hzero, Nat.add_zero, Nat.mod_eq_of_lt hi]
  · have hplaces : (w.bits - y % w.bits) % w.bits = w.bits - y % w.bits := Nat.mod_eq_of_lt (by omega)
    have hindex : i + w.bits - (w.bits - y % w.bits) = i + y % w.bits := by omega
    rw [rotr_eq_rotl_complement x hpos, rotl_getLsbD x hi, hplaces, hindex]

/-! #### Both rotations together (R127) -/

theorem rotr_rotl : rotr (rotl x y) y = x := by
  apply BitVec.eq_of_getLsbD_eq
  intro i hi
  rw [rotr_getLsbD _ hi, rotl_getLsbD x (Nat.mod_lt _ (bits_pos w)), turn_back_turn (Nat.mod_lt y (bits_pos w)).le hi]

theorem rotl_rotr : rotl (rotr x y) y = x := by
  apply BitVec.eq_of_getLsbD_eq
  intro i hi
  rw [rotl_getLsbD _ hi, rotr_getLsbD x (Nat.mod_lt _ (bits_pos w)), turn_turn_back (Nat.mod_lt y (bits_pos w)).le hi]

theorem rotl_zero : rotl (0 : Word w) y = 0 := by
  apply BitVec.eq_of_getLsbD_eq
  intro i hi
  rw [rotl_getLsbD _ hi]
  exact BitVec.getLsbD_zero.trans BitVec.getLsbD_zero.symm

theorem rotl_allOnes : rotl (BitVec.allOnes w.bits) y = BitVec.allOnes w.bits := by
  apply BitVec.eq_of_getLsbD_eq
  intro i hi
  have hsource : (i + w.bits - y % w.bits) % w.bits < w.bits := Nat.mod_lt _ (bits_pos w)
  rw [rotl_getLsbD _ hi, BitVec.getLsbD_allOnes, BitVec.getLsbD_allOnes, decide_eq_true hsource, decide_eq_true hi]

end Rotations

/-- Settles O29: the bit that lands at `(k + n) mod w` stood at `k`. -/
theorem rotateLeftMovesEveryBit : Obligations.RotateLeftMovesEveryBit := by
  refine ⟨fun w x y k hk => ⟨?_, rotl_of_mod_eq_zero x⟩, by decide, by decide⟩
  rw [rotl_getLsbD x (Nat.mod_lt _ (bits_pos w)), turn_back_turn (Nat.mod_lt y (bits_pos w)).le hk]

/-- Settles O30: the bit that lands at `(k - n) mod w` stood at `k`. -/
theorem rotateRightMovesEveryBit : Obligations.RotateRightMovesEveryBit := by
  refine ⟨fun w x y k hk => ⟨?_, rotr_of_mod_eq_zero x, rotr_eq_rotl_complement x⟩, by decide, by decide⟩
  rw [rotr_getLsbD x (Nat.mod_lt _ (bits_pos w)), turn_turn_back (Nat.mod_lt y (bits_pos w)).le hk]

/-- Settles O31: each rotation takes every bit back to where the other found it. -/
theorem rotationsUndoEachOther : Obligations.RotationsUndoEachOther := by
  intro w x y
  exact ⟨rotr_rotl x, rotl_rotr x, rotl_of_mod_eq_zero x (Nat.mod_self w.bits),
    rotl_congr_mod x (Nat.add_mod_left w.bits 1), rotl_zero, rotl_allOnes⟩

/-! #### The amount as a sum (R128) -/

theorem bits_dvd_two_pow_bits (w : WordSize) : w.bits ∣ 2 ^ w.bits := by cases w <;> decide

/-- Settles O32: `w` divides `2^w`, so wrapping the sum leaves it the same modulo `w`. -/
theorem rotationAmountMayBeASum : Obligations.RotationAmountMayBeASum := by
  intro w x a b
  apply rotl_congr_mod
  rw [addW_toNat, Nat.mod_mod_of_dvd _ (bits_dvd_two_pow_bits w)]

end Sys2Proof.Machine

/-! ### The forward transform and the uninitialised engine (44_encrypt.md R181 to R186, 45_decrypt.md R194, R196) -/

namespace Sys2Proof.Machine

section Blocks

variable {w : WordSize} (S : List (Word w)) (x : Word w × Word w)

theorem encryptBlock_zero : encryptBlock S 0 x = (addW x.1 (wordAt S 0), addW x.2 (wordAt S 1)) := rfl

theorem decryptBlock_zero : decryptBlock S 0 x = (subW x.1 (wordAt S 0), subW x.2 (wordAt S 1)) := rfl

/-- The rounds ascend, so the last round works on the block that whitening and the rounds before it give (R182). -/
theorem encryptBlock_of_pos {i : Nat} (hi : 1 ≤ i) :
    encryptBlock S i x = encryptRound S i (encryptBlock S (i - 1) x) := by
  obtain ⟨k, rfl⟩ := Nat.exists_eq_add_of_le' hi
  rfl

theorem encryptRound_fst (i : Nat) :
    (encryptRound S i x).1 = addW (rotl (xorW x.1 x.2) x.2.toNat) (wordAt S (2 * i)) := rfl

theorem encryptRound_snd (i : Nat) :
    (encryptRound S i x).2 =
      addW (rotl (xorW x.2 (encryptRound S i x).1) (encryptRound S i x).1.toNat) (wordAt S (2 * i + 1)) := rfl

end Blocks

/-- Without a table the shared round transform answers its one error, whatever function it applies. -/
theorem roundTransform_of_not_keyed {s : State} (hk : s.keyed = false)
    (f : (w : WordSize) → List (Word w) → Nat → Word w × Word w → Word w × Word w) :
    roundTransform f s = .next (s.raise .notInitialized) := by
  rcases roundTransform_cases f s with ⟨-, h⟩ | ⟨x, S, hx, hS, -⟩
  · exact h
  · have hkeyed : s.keyed = true := by simp [State.keyed, hx, hS]
    exact absurd (hk.symm.trans hkeyed) Bool.false_ne_true

/-- Settles O42: `A i` and `B i` are the two words of the block that whitening and the first `i` rounds give. -/
theorem encryptIsTheForwardTransform : Obligations.EncryptIsTheForwardTransform := by
  intro s x S hx hS hl
  refine ⟨_, fun i => (encryptBlock S i (blockWord x.w s.x0, blockWord x.w s.x1)).1,
    fun i => (encryptBlock S i (blockWord x.w s.x0, blockWord x.w s.x1)).2, roundTransform_next _ hx hS hl, respond_ctx _ _,
    congrArg Prod.fst (encryptBlock_zero S _), congrArg Prod.snd (encryptBlock_zero S _), fun i hi _ => ?_,
    respond_response _ _⟩
  dsimp only
  rw [encryptBlock_of_pos S _ hi]
  exact ⟨encryptRound_fst S _ i, encryptRound_snd S _ i⟩

/-- Settles O45: both commands are the shared transform. -/
theorem transformsNeedATable : Obligations.TransformsNeedATable := by
  intro s hk
  exact ⟨⟨_, roundTransform_of_not_keyed hk _, raise_response _ _, raise_ctx _ _⟩,
    ⟨_, roundTransform_of_not_keyed hk _, raise_response _ _, raise_ctx _ _⟩⟩

/-- Settles O44: a block of no rounds is the block with the first two round keys added, or subtracted. -/
theorem zeroRoundsOnlyWhiten : Obligations.ZeroRoundsOnlyWhiten :=
  fun _ S a b => ⟨encryptBlock_zero S (a, b), decryptBlock_zero S (a, b)⟩

end Sys2Proof.Machine

/-! ### The inverse transform (45_decrypt.md R191 to R195) -/

namespace Sys2Proof.Machine

section Cancellation

variable {n : Nat} (x y : BitVec n)

@[simp] theorem subW_addW : subW (addW x y) y = x := BitVec.add_sub_cancel x y

@[simp] theorem addW_subW : addW (subW x y) y = x := BitVec.sub_add_cancel x y

@[simp] theorem xorW_xorW : xorW (xorW x y) y = x := by
  rw [xorW, xorW, BitVec.xor_assoc, BitVec.xor_self, BitVec.xor_zero]

end Cancellation

section InverseRounds

variable {w : WordSize} (S : List (Word w)) (x : Word w × Word w)

theorem decryptRound_snd (i : Nat) :
    (decryptRound S i x).2 = xorW (rotr (subW x.2 (wordAt S (2 * i + 1))) x.1.toNat) x.1 := rfl

theorem decryptRound_fst (i : Nat) :
    (decryptRound S i x).1 =
      xorW (rotr (subW x.1 (wordAt S (2 * i))) (decryptRound S i x).2.toNat) (decryptRound S i x).2 := rfl

/-- The inverse round recovers the old `B` from the new `A`, and then the old `A` from the old `B`. -/
theorem decryptRound_encryptRound (i : Nat) : decryptRound S i (encryptRound S i x) = x := by
  have hB : (decryptRound S i (encryptRound S i x)).2 = x.2 := by
    rw [decryptRound_snd, encryptRound_snd, subW_addW, rotr_rotl, xorW_xorW]
  have hA : (decryptRound S i (encryptRound S i x)).1 = x.1 := by
    rw [decryptRound_fst, hB, encryptRound_fst, subW_addW, rotr_rotl, xorW_xorW]
  exact Prod.ext hA hB

/-- The forward round recovers the two words in the other order. -/
theorem encryptRound_decryptRound (i : Nat) : encryptRound S i (decryptRound S i x) = x := by
  have hA : (encryptRound S i (decryptRound S i x)).1 = x.1 := by
    rw [encryptRound_fst, decryptRound_fst, xorW_xorW, rotl_rotr, addW_subW]
  have hB : (encryptRound S i (decryptRound S i x)).2 = x.2 := by
    rw [encryptRound_snd, hA, decryptRound_snd, xorW_xorW, rotl_rotr, addW_subW]
  exact Prod.ext hA hB

/-- The last round to be applied is the first to be undone (R192). -/
theorem decryptRounds_encryptRounds (r : Nat) : decryptRounds S r (encryptRounds S r x) = x := by
  induction r with
  | zero => rfl
  | succ r ih => rw [encryptRounds, decryptRounds, decryptRound_encryptRound, ih]

theorem encryptRounds_decryptRounds (r : Nat) : encryptRounds S r (decryptRounds S r x) = x := by
  induction r generalizing x with
  | zero => rfl
  | succ r ih => rw [decryptRounds, encryptRounds, ih, encryptRound_decryptRound]

theorem decryptBlock_encryptBlock (r : Nat) : decryptBlock S r (encryptBlock S r x) = x := by
  simp only [decryptBlock, encryptBlock, decryptRounds_encryptRounds, subW_addW]

theorem encryptBlock_decryptBlock (r : Nat) : encryptBlock S r (decryptBlock S r x) = x := by
  simp only [encryptBlock, decryptBlock, addW_subW, Prod.mk.eta, encryptRounds_decryptRounds]

/-- The words on entry to the iteration for round `i`: what `i` forward rounds make of the block that all `r` iterations
leave.  The lemmas below tie it to the descending order of R192: it starts at the input block, and each iteration takes it
from `i` to `i - 1`. -/
def decryptEntry (r i : Nat) : Word w × Word w := encryptRounds S i (decryptRounds S r x)

theorem decryptEntry_zero (r : Nat) : decryptEntry S x r 0 = decryptRounds S r x := rfl

theorem decryptEntry_self (r : Nat) : decryptEntry S x r r = x := encryptRounds_decryptRounds S x r

theorem decryptEntry_pred (r : Nat) {i : Nat} (hi : 1 ≤ i) :
    decryptEntry S x r (i - 1) = decryptRound S i (decryptEntry S x r i) := by
  obtain ⟨k, rfl⟩ := Nat.exists_eq_add_of_le' hi
  exact (decryptRound_encryptRound S (decryptEntry S x r k) (k + 1)).symm

end InverseRounds

/-- Settles O43: `A i` and `B i` are the two words on entry to the iteration for round `i`. -/
theorem decryptIsTheInverseTransform : Obligations.DecryptIsTheInverseTransform := by
  intro s x S hx hS hl
  refine ⟨_, fun i => (decryptEntry S (blockWord x.w s.x0, blockWord x.w s.x1) x.r.toNat i).1,
    fun i => (decryptEntry S (blockWord x.w s.x0, blockWord x.w s.x1) x.r.toNat i).2, roundTransform_next _ hx hS hl,
    respond_ctx _ _, congrArg Prod.fst (decryptEntry_self S _ _), congrArg Prod.snd (decryptEntry_self S _ _),
    fun i hi _ => ?_, respond_response _ _⟩
  dsimp only
  rw [decryptEntry_pred S _ _ hi]
  exact ⟨decryptRound_snd S _ i, decryptRound_fst S _ i⟩

section RoundTrip

variable {f g : (w : WordSize) → List (Word w) → Nat → Word w × Word w → Word w × Word w} {i j : Instr}
  {x : Context} {S : List (Word x.w)}

/-- A command that runs the shared transform, issued between commands, answers the block of its own operands. -/
theorem issue_roundTransform_next (hi : exec i = roundTransform f) {c : Command} (hd : decode c.word = .ok i) {s : State}
    (hs : s.cmd = none) (hx : s.ctx = some x) (hS : x.S = some S) (hl : 2 * x.r.toNat + 2 ≤ S.length) :
    issue c s = .next ((s.drive c).respond
      (.okBlock (zextXlen (f x.w S x.r.toNat (blockWord x.w c.x0, blockWord x.w c.x1)).1)
        (zextXlen (f x.w S x.r.toNat (blockWord x.w c.x0, blockWord x.w c.x1)).2))) := by
  rw [issue_of_decode_ok hd hs, hi]
  exact roundTransform_next f (s := s.drive c) hx hS hl

/-- Of two commands that run the shared transform, the second gives the first one's block back when its function undoes the
first one's: the block passes the data ports unchanged. -/
theorem issue_roundTransform_undoes (hi : exec i = roundTransform f) (hj : exec j = roundTransform g)
    (hgf : ∀ y, g x.w S x.r.toNat (f x.w S x.r.toNat y) = y) {c d : Command} (hc : decode c.word = .ok i)
    (hd : decode d.word = .ok j) {s : State} (hs : s.cmd = none) (hx : s.ctx = some x) (hS : x.S = some S)
    (hl : 2 * x.r.toNat + 2 ≤ S.length) :
    ∃ t y0 y1, issue c s = .next t ∧ t.ctx = s.ctx ∧ t.response = some (.okBlock y0 y1) ∧
      ∀ u : State, u.cmd = none → u.ctx = s.ctx → ∃ v, issue { d with x0 := y0, x1 := y1 } u = .next v ∧
        v.response = some (.okBlock (zextXlen (blockWord x.w c.x0)) (zextXlen (blockWord x.w c.x1))) := by
  refine ⟨_, _, _, issue_roundTransform_next hi hc hs hx hS hl, rfl, respond_response _ _, fun u hu hctx => ?_⟩
  have hback (y0 y1 : DataWord) :=
    issue_roundTransform_next (c := { d with x0 := y0, x1 := y1 }) hj hd hu (hctx.trans hx) hS hl
  refine ⟨_, hback _ _, ?_⟩
  simp only [respond_response, blockWord_zextXlen, Prod.mk.eta, hgf]

end RoundTrip

/-- Settles O50: each of the two block functions undoes the other, whatever the table holds. -/
theorem encryptAndDecryptUndoEachOther : Obligations.EncryptAndDecryptUndoEachOther := by
  intro s x S e d hs hx hS hl he hd
  exact ⟨issue_roundTransform_undoes rfl rfl (decryptBlock_encryptBlock S · _) he hd hs hx hS hl,
    issue_roundTransform_undoes rfl rfl (encryptBlock_decryptBlock S · _) hd he hs hx hS hl⟩

end Sys2Proof.Machine

/-! ### The idle engine (60_exceptions.md R213, 70_reset_and_hazards.md R230) -/

namespace Sys2Proof.Machine

/-- Settles O7: the two other kinds of step have a command pending. -/
theorem idleStepHoldsEverything : Obligations.IdleStepHoldsEverything := by
  intro s hs
  rcases step_cases s with ⟨-, h⟩ | ⟨word, why, hword, -, -⟩ | ⟨word, i, hword, -, -⟩
  · exact h
  · cases hs.symm.trans hword
  · cases hs.symm.trans hword

end Sys2Proof.Machine

/-! ### Errors: which command raises which, and what an error leaves (60_exceptions.md R201 to R203, R206, R208) -/

namespace Sys2Proof.Machine

variable {s t : State} {c : Command} {e : Error}

/-- A command that answers an error has done nothing but raise it, and the error is one of the command's own. -/
theorem exec_error_cases {i : Instr} (h : exec i s = .next t) (he : t.response = some (.error e)) :
    t = s.raise e ∧
      ((e = .invalidParameter ∧ ((∃ W R B, i = .create W R B) ∨ ∃ LEN, i = .expand LEN)) ∨
       (e = .notInitialized ∧ (i = .encrypt ∨ i = .decrypt) ∧ s.keyed = false)) := by
  rcases exec_next_cases h with ⟨e', rfl, hcause⟩ | ⟨W, R, B, w, -, -, rfl⟩ | ⟨LEN, x, -, -, rfl⟩ | ⟨y0, y1, -, -, rfl⟩
  · cases he
    exact ⟨rfl, hcause⟩
  all_goals cases he -- a response of success

/-- The same of a command issued between commands, with the error of a word that decodes to no command (R203). -/
theorem issue_error_cases (hs : s.cmd = none) (h : issue c s = .next t) (he : t.response = some (.error e)) :
    t = (s.drive c).raise e ∧
      ((e = .illegalCommand ∧ ∃ why, decode c.word = .error why) ∨
       (e = .invalidParameter ∧
         ((∃ W R B, decode c.word = .ok (.create W R B)) ∨ ∃ LEN, decode c.word = .ok (.expand LEN))) ∨
       (e = .notInitialized ∧ (decode c.word = .ok .encrypt ∨ decode c.word = .ok .decrypt) ∧ s.keyed = false)) := by
  cases hd : decode c.word with
  | error why =>
    cases (issue_of_decode_error hd hs).symm.trans h
    cases he
    exact ⟨rfl, .inl ⟨rfl, why, rfl⟩⟩
  | ok i =>
    obtain ⟨hraise, hcause⟩ := exec_error_cases ((issue_of_decode_ok hd hs).symm.trans h) he
    simp only [Except.ok.injEq]
    exact ⟨hraise, .inr hcause⟩

theorem issue_error_ctx (hs : s.cmd = none) (h : issue c s = .next t) (he : t.response = some (.error e)) :
    t.ctx = s.ctx := by
  obtain ⟨rfl, -⟩ := issue_error_cases hs h he
  exact raise_ctx (s.drive c) e

/-- Settles O19: raising an error leaves the context, and the flags are read from it. -/
theorem errorsChangeNoState : Obligations.ErrorsChangeNoState := by
  intro s t c e hs h he
  have hctx : t.ctx = s.ctx := issue_error_ctx hs h he
  exact ⟨hctx, resolved_eq_of_ctx hctx, keyed_eq_of_ctx hctx⟩

/-- Settles O20, by the causes of an error. -/
theorem errorsBelongToTheirCommands : Obligations.ErrorsBelongToTheirCommands := by
  intro s t c e hs h he
  obtain ⟨-, ⟨rfl, hcause⟩ | ⟨rfl, hcause⟩ | ⟨rfl, hcause⟩⟩ := issue_error_cases hs h he <;> exact hcause

/-- A command that is answered was issued on the state that the wait before it reached, whatever command it is. -/
theorem issue_next_wait (h : issue c s = .next t) : ∃ v : State, v.cmd = none ∧ ∀ d, issue d s = issue d v := by
  cases hw : step s with
  | next v =>
    have hready : v.cmd = none := step_next_cmd hw
    exact ⟨v, hready, fun d => (issue_of_step hw d).trans (issue_of_ready hready d).symm⟩
  | fault f => simp [issue, hw] at h
  | refused why => simp [issue, hw] at h

/-- Settles O55: after the wait the failed command leaves the context, which with the next command decides the answer. -/
theorem failedCommandsLeaveNoTrace : Obligations.FailedCommandsLeaveNoTrace := by
  intro s t u c d e hc he hd
  obtain ⟨v, hready, hwait⟩ := issue_next_wait hc
  have hfailed : issue c v = .next t := (hwait c).symm.trans hc
  have hctx : t.ctx = v.ctx := issue_error_ctx hready hfailed he
  have hdone : t.cmd = none := by
    obtain ⟨w, r, rfl⟩ := issue_next_responds hc
    exact respond_cmd w r
  calc issue d t = issue d v := issue_eq_of_ctx hctx hdone hready d
    _ = issue d s := (hwait d).symm
    _ = .next u := hd

end Sys2Proof.Machine

/-! ### Reset and sequences of commands (70_reset_and_hazards.md R230 to R233, R240 to R244) -/

namespace Sys2Proof.Machine

/-! #### The reset input and the command port (R230, R231, R240, R244) -/

@[simp] theorem resetInput_eq_reset (s : State) : s.resetInput = State.reset := rfl

/-- Settles O13: the reset state has no command pending, so the step that follows is idle. -/
theorem resetInputAbandonsTheCommand : Obligations.ResetInputAbandonsTheCommand := by
  intro s c
  have hidle : step State.reset = .next State.reset := idleStepHoldsEverything State.reset rfl
  simp only [resetInput_eq_reset, hidle, and_self]

/-- Settles O56, by the two things `present` can do. -/
theorem pendingCommandIsNeverReplaced : Obligations.PendingCommandIsNeverReplaced := by
  intro s c
  constructor
  · intro hpending
    obtain ⟨word, hword⟩ := Option.ne_none_iff_exists'.mp hpending
    exact present_of_pending hword c
  · intro hready
    rw [present_of_ready hready]
    exact ⟨drive_cmd s c, drive_key s c, drive_x0 s c, drive_x1 s c, drive_ctx s c, drive_response s c⟩

/-! #### The wait of `issue` (R244) -/

/-- A command issued is the command issued on a state between commands: the state itself, or the one that the
pending command leaves, which under the invariant has an answer. -/
theorem exists_ready_issue_eq {s : State} (h : s.cmd = none ∨ s.Inv) :
    ∃ v : State, v.cmd = none ∧ ∀ d, issue d s = issue d v := by
  rcases h with hready | hinv
  · exact ⟨s, hready, fun _ => rfl⟩
  · obtain ⟨v, hv⟩ := step_answers_of_inv hinv
    have hready : v.cmd = none := step_next_cmd hv
    exact ⟨v, hready, fun d => (issue_of_step hv d).trans (issue_of_ready hready d).symm⟩

theorem issueAll_cons_of_next {c : Command} {s t : State} (h : issue c s = .next t) (cs : List Command) :
    issueAll (c :: cs) s = issueAll cs t := by
  simp only [issueAll, h]

/-! #### The three answers of a bring-up (R232, R233) -/

section BringUp

variable {s : State} {x : Context} {c : Command}

theorem lifecycle_resolved_of_no_table (hx : s.ctx = some x) (hS : x.S = none) : s.lifecycle = .resolved :=
  lifecycle_eq_resolved_iff.mpr ⟨by simp [State.resolved, hx], by simp [State.keyed, hx, hS]⟩

theorem lifecycle_keyed_of_table {S : List (Word x.w)} (hx : s.ctx = some x) (hS : x.S = some S) :
    s.lifecycle = .keyed :=
  lifecycle_eq_keyed_iff.mpr (by simp [State.keyed, hx, hS])

theorem key_length_of_wellFormed {LEN : BitVec 8} (hd : decode c.word = .ok (.expand LEN)) (h : c.wellFormed = true) :
    c.key.length = LEN.toNat := by
  simpa [Command.wellFormed, hd, Instr.payloadFits, Instr.keyLength] using h

theorem issue_create_answers {w : WordSize} {W R B : BitVec 8} (hW : W.toNat = w.bits)
    (hd : decode c.word = .ok (.create W R B)) (hs : s.cmd = none) :
    ∃ t, issue c s = .next t ∧ t.cmd = none ∧ t.ctx = some (resolve w R B) ∧ t.response = some .ok :=
  ⟨_, (issue_of_decode_ok hd hs).trans (exec_create_of_supported hW), respond_cmd _ _, respond_ctx _ _,
    respond_response _ _⟩

theorem issue_expand_answers (hd : decode c.word = .ok (.expand x.b)) (hc : c.wellFormed = true) (hs : s.cmd = none)
    (hx : s.ctx = some x) (hwf : x.Wf) :
    ∃ t, issue c s = .next t ∧ t.cmd = none ∧ t.ctx = some (x.withTable (keySchedule x c.key)) ∧
      t.response = some .ok := by
  have hk : keyLengthOk x x.b c.key = true := keyLengthOk_iff.mpr ⟨rfl, key_length_of_wellFormed hd hc⟩
  exact ⟨_, (issue_of_decode_ok hd hs).trans (exec_expand_of_keyLengthOk (s := s.drive c) hx hwf hk), respond_cmd _ _,
    respond_ctx _ _, respond_response _ _⟩

theorem issue_roundTransform_answers {i : Instr}
    {f : (w : WordSize) → List (Word w) → Nat → Word w × Word w → Word w × Word w} {S : List (Word x.w)}
    (hi : exec i = roundTransform f) (hd : decode c.word = .ok i) (hs : s.cmd = none) (hx : s.ctx = some x)
    (hS : x.S = some S) (hl : 2 * x.r.toNat + 2 ≤ S.length) :
    ∃ t y0 y1, issue c s = .next t ∧ t.cmd = none ∧ t.ctx = some x ∧ t.response = some (.okBlock y0 y1) :=
  ⟨_, _, _, issue_roundTransform_next hi hd hs hx hS hl, respond_cmd _ _, hx, respond_response _ _⟩

end BringUp

/-- The table that `EXPAND` computes in a context fresh from `CREATE` holds every round key (R30). -/
theorem roundKeys_le_keySchedule_resolve (w : WordSize) (R B : BitVec 8) (key : List Byte) :
    2 * R.toNat + 2 ≤ (keySchedule (resolve w R B) key).length := by
  obtain ⟨-, ht, -, -, -⟩ := resolve_wf w R B
  rw [keySchedule_length, ht, resolve_r, tableLength, Nat.mul_succ]

/-- Settles O53: after the wait each command finds the port free and the context that the one before left. -/
theorem bringUpSucceedsInOrder : Obligations.BringUpSucceedsInOrder := by
  intro s w W R B c k e d hW hc hk hkey he hd hs
  have hkeys := roundKeys_le_keySchedule_resolve w R B k.key
  obtain ⟨v, hready, hwait⟩ := exists_ready_issue_eq hs
  obtain ⟨t1, h1, hcmd1, hctx1, hresp1⟩ := issue_create_answers hW hc hready
  obtain ⟨t2, h2, hcmd2, hctx2, hresp2⟩ := issue_expand_answers hk hkey hcmd1 hctx1 (resolve_wf w R B)
  obtain ⟨t3, y0, y1, h3, hcmd3, hctx3, hresp3⟩ :=
    issue_roundTransform_answers (i := .encrypt) rfl he hcmd2 hctx2 (withTable_S _ _) hkeys
  obtain ⟨t4, z0, z1, h4, -, hctx4, hresp4⟩ :=
    issue_roundTransform_answers (i := .decrypt) rfl hd hcmd3 hctx3 (withTable_S _ _) hkeys
  have hissue : issue c s = .next t1 := (hwait c).trans h1
  have hall : issueAll [c, k, e, d] s = .next t4 := by
    rw [issueAll_cons_of_next hissue, issueAll_cons_of_next h2, issueAll_cons_of_next h3,
      issueAll_cons_of_next h4, issueAll]
  exact ⟨t1, t2, t3, t4, y0, y1, z0, z1,
    hissue, hresp1, lifecycle_resolved_of_no_table hctx1 (resolve_S w R B),
    h2, hresp2, lifecycle_keyed_of_table hctx2 (withTable_S _ _),
    h3, hresp3, lifecycle_keyed_of_table hctx3 (withTable_S _ _),
    h4, hresp4, lifecycle_keyed_of_table hctx4 (withTable_S _ _), hall⟩

/-! #### A successful `CREATE` discards the key (R242) -/

theorem keyed_eq_false_of_create_ok {s t : State} {W R B : BitVec 8} (h : exec (.create W R B) s = .next t)
    (hok : t.response = some .ok) : t.keyed = false := by
  rcases exec_create_next_cases h with rfl | ⟨w, rfl⟩
  · cases hok
  · rfl

/-- Settles O54: the `CREATE` ran on the state that its wait reached, and it leaves no table. -/
theorem createDiscardsTheKey : Obligations.CreateDiscardsTheKey := by
  intro s t W R B c e hc h hok he
  obtain ⟨v, hready, hwait⟩ := issue_next_wait h
  have hrun : exec (.create W R B) (v.drive c) = .next t := by
    rw [← issue_of_decode_ok hc hready, ← hwait c, h]
  have hkeyed : t.keyed = false := keyed_eq_false_of_create_ok hrun hok
  have hdone : t.cmd = none := by
    obtain ⟨u, r, rfl⟩ := issue_next_responds h
    exact respond_cmd u r
  obtain ⟨⟨u, hu, hresp, -⟩, ⟨u', hu', hresp', -⟩⟩ :=
    transformsNeedATable (t.drive e) ((drive_keyed t e).trans hkeyed)
  rcases he with he | he
  · exact ⟨u, (issue_of_decode_ok he hdone).trans hu, hresp⟩
  · exact ⟨u', (issue_of_decode_ok he hdone).trans hu', hresp'⟩

end Sys2Proof.Machine
